-- ==== Sys2Proof/Word.lean ====
section
/-!
DEFINITION. The two bit widths of the machine: the 32-bit word of the stack, the register file, the ALU and the
output port (10_state.md R21), and the 8-bit byte of the instruction buffer (20_memory.md R50).
-/

namespace Sys2Proof

/-- One word: a 32-bit two's-complement pattern. The spec's `Int32` value of it is `BitVec.toInt` (R12, R21). -/
abbrev Word := BitVec 32

/-- One byte of the instruction buffer (R11, R50). -/
abbrev Byte := BitVec 8

end Sys2Proof
end

