-- ==== Sys2Proof/Machine/Alu.lean ====
section
/-!
DEFINITION. The integer functions of the ALU (44_arithmetic.md R140 to R149), each computed on unbounded integers and
narrowed at the end. Overflow wraps (R141) and a quotient is truncated (R147), as those rules decide (log 4).
-/

namespace Sys2Proof.Machine

/-- `wrap32(n)`: the `Int32` congruent to `n` modulo 2^32 (R12). -/
def wrap32 (n : Int) : Word := BitVec.ofInt 32 n

/-- The result of ADD (R141, R143). -/
def aluAdd (a b : Word) : Word := wrap32 (a.toInt + b.toInt)

/-- The result of SUB, the top subtracted from the value under it (R141, R144). -/
def aluSub (a b : Word) : Word := wrap32 (a.toInt - b.toInt)

/-- The result of MUL (R141, R145). -/
def aluMul (a b : Word) : Word := wrap32 (a.toInt * b.toInt)

/-- `tdiv(a, b)` for `b != 0`: the true quotient rounded toward zero, then wrapped (R147). -/
def aluTdiv (a b : Word) : Word := wrap32 (Int.tdiv a.toInt b.toInt)

end Sys2Proof.Machine
end

