-- ==== Sys2Proof/Syntax.lean ====
section
/-!
DEFINITION. The decoded instruction (40_fetch_decode_dispatch.md R97): an opcode tag and zero or one operand, one
constructor for each row of spec/opcode_table.json.
-/

namespace Sys2Proof

/-- The fourteen instructions (R1, R76). A register index and a jump target are plain numbers, the encoding's bound on
them is `Instr.WellFormed`; the immediate of PUSH is a word, every pattern of which is legal (R73). -/
inductive Instr
  /-- R161 -/
  | nop
  /-- R111: push the immediate `n`. -/
  | push (n : Word)
  /-- R112 -/
  | pop
  /-- R121: push register `r`. -/
  | load (r : Nat)
  /-- R123: pop into register `r`. -/
  | store (r : Nat)
  /-- R132: jump to the byte address `t`. -/
  | jmp (t : Nat)
  /-- R133: pop, jump to `t` if zero. -/
  | jz (t : Nat)
  /-- R134: pop, jump to `t` if not zero. -/
  | jnz (t : Nat)
  /-- R143 -/
  | add
  /-- R144 -/
  | sub
  /-- R145 -/
  | mul
  /-- R146 -/
  | div
  /-- R162 -/
  | print
  /-- R164 -/
  | stop
deriving DecidableEq, Repr

end Sys2Proof
end

