-- ==== Sys2Proof/WellFormed.lean ====
section
/-!
DEFINITION. Which instructions the encoding can express: a register index fits one byte (30_encoding.md R74), a jump
target two (R75). An index at or above NREGS and a target at or above MAX_INSTS are well formed (R80).
-/

namespace Sys2Proof

/-- The operand fits the operand field of the instruction's format (R71, R72). -/
def Instr.WellFormed : Instr → Bool
  | .load r | .store r => decide (r < 256)
  | .jmp t | .jz t | .jnz t => decide (t < 65536)
  | .nop | .push _ | .pop | .add | .sub | .mul | .div | .print | .stop => true

end Sys2Proof
end

