-- ==== Sys2Proof/Decode.lean ====
section
/-!
DEFINITION. The encoding (30_encoding.md): the decoder from bytes to an instruction, total and rejecting by name, and
the encoder written from the same tables, the byte order of both, and the host's one-word view of the decoder.
-/

namespace Sys2Proof

/-- The unsigned little-endian value of a byte string: the first byte is the least significant (R14, R52). -/
def leNat : List Byte → Nat
  | [] => 0
  | b :: rest => b.toNat + 256 * leNat rest

/-- The `n` low-order bytes of `v`, least significant first (R14, R82). -/
def leBytes : Nat → Nat → List Byte
  | 0, _ => []
  | n + 1, v => BitVec.ofNat 8 v :: leBytes n (v / 256)

/-- What decoding finds (R97): an instruction and its length in bytes, an opcode byte that is none of the fourteen
(R79), or an instruction whose bytes run out (R91, R93). -/
inductive Decoded
  | instr (i : Instr) (length : Nat)
  | invalid (op : Byte)
  | truncated
deriving DecidableEq, Repr

/-- The operand step (R93, R94): with `n` operand bytes present, the raw unsigned operand makes the instruction;
otherwise the instruction is truncated. -/
def decodeOperand (n : Nat) (rest : List Byte) (make : Nat → Instr) : Decoded :=
  if rest.length < n then .truncated else .instr (make (leNat (rest.take n))) (1 + n)

/-- Classification and the operand step (R92 to R94), from the opcode byte and the bytes after it: the opcode map of R76,
the operand widths of R72, the operand readings of R73 (PUSH: the 32-bit pattern) and R74, R75 (zero-extended). -/
def decodeOpcode (op : Byte) (rest : List Byte) : Decoded :=
  match op.toNat with
  | 0x00 => .instr .nop 1
  | 0x01 => decodeOperand 4 rest fun u => .push (BitVec.ofNat 32 u)
  | 0x02 => .instr .pop 1
  | 0x03 => decodeOperand 1 rest .load
  | 0x04 => decodeOperand 1 rest .store
  | 0x05 => decodeOperand 2 rest .jmp
  | 0x06 => decodeOperand 2 rest .jz
  | 0x07 => decodeOperand 2 rest .jnz
  | 0x08 => .instr .add 1
  | 0x09 => .instr .sub 1
  | 0x0A => .instr .mul 1
  | 0x0B => .instr .div 1
  | 0x0C => .instr .print 1
  | 0x0D => .instr .stop 1
  | _ => .invalid op

/-- Decode the instruction that starts a byte string. An empty string is an opcode fetch past the end (R91). -/
def decode : List Byte → Decoded
  | [] => .truncated
  | op :: rest => decodeOpcode op rest

/-- Decode a whole byte string of valid, untruncated instructions (R78, R82); `none` if it is not one. The first
argument bounds the number of instructions: the length of the string is always enough. -/
def decodeStream : Nat → List Byte → Option (List Instr)
  | _, [] => some []
  | 0, _ :: _ => none
  | fuel + 1, b :: rest =>
    match decode (b :: rest) with
    | .instr i n => (decodeStream fuel ((b :: rest).drop n)).map (i :: ·)
    | .invalid _ | .truncated => none

/-- The opcode byte of an instruction (R76). -/
def Instr.opcodeByte : Instr → Byte
  | .nop => 0x00
  | .push _ => 0x01
  | .pop => 0x02
  | .load _ => 0x03
  | .store _ => 0x04
  | .jmp _ => 0x05
  | .jz _ => 0x06
  | .jnz _ => 0x07
  | .add => 0x08
  | .sub => 0x09
  | .mul => 0x0A
  | .div => 0x0B
  | .print => 0x0C
  | .stop => 0x0D

/-- The operand width `N` in bytes (R72). -/
def Instr.operandWidth : Instr → Nat
  | .push _ => 4
  | .load _ | .store _ => 1
  | .jmp _ | .jz _ | .jnz _ => 2
  | .nop | .pop | .add | .sub | .mul | .div | .print | .stop => 0

/-- The instruction's length in bytes (R70, R72). -/
def Instr.length (i : Instr) : Nat := 1 + i.operandWidth

/-- The raw operand, as an unsigned number; 0 where there is none (R73 to R75). -/
def Instr.rawOperand : Instr → Nat
  | .push n => n.toNat
  | .load r | .store r => r
  | .jmp t | .jz t | .jnz t => t
  | .nop | .pop | .add | .sub | .mul | .div | .print | .stop => 0

/-- Encode: the opcode byte, then the operand's low-order bytes, least significant first (R82). -/
def encode (i : Instr) : List Byte := i.opcodeByte :: leBytes i.operandWidth i.rawOperand

/-- Encode a sequence of instructions, with no gap between them (R70). -/
def encodeStream : List Instr → List Byte
  | [] => []
  | i :: rest => encode i ++ encodeStream rest

/-- The longest instruction, in bytes (R70). -/
def maxInstrBytes : Nat := 5

/-- The bytes of an instruction given as one number whose bit 0 is the least significant bit of the byte at the lowest
address (R71); bits at or above `nbits` are 0. -/
def tableBytes (nbits w : Nat) : List Byte := leBytes maxInstrBytes (w % 2 ^ nbits)

/-- The instruction this decoder reads from the bytes of `w`. -/
def decodeTableWord (nbits w : Nat) : Option Instr :=
  match decode (tableBytes nbits w) with
  | .instr i _ => some i
  | .invalid _ | .truncated => none

end Sys2Proof
end

