-- ==== Sys2Proof/Config.lean ====
section
/-!
DEFINITION. What an implementation of the core fixes at design time (00_scope.md R6 to R10): three sizes, which the
spec leaves open, and the loader's mode. The spec leaves no other value open: there is no free value here.
-/

namespace Sys2Proof

/-- What the loader does with a program longer than the instruction buffer (R205, R206). The spec adopts `strict`. -/
inductive LoadMode
  /-- R205: the load fails with ProgramTooLarge and nothing is copied. -/
  | strict
  /-- R206: the first MAX_INSTS bytes are copied and the run starts on the truncated image. -/
  | permissive
deriving DecidableEq, Repr

/-- The parameters of R6 and the loader mode of R206. "All three are positive integers fixed at design time; no
instruction reads or changes them." -/
structure Config where
  /-- STACK_SIZE: slots of the operand stack. -/
  stackSize : Nat
  /-- NREGS: registers. -/
  nregs : Nat
  /-- MAX_INSTS: bytes of the instruction buffer. -/
  maxInsts : Nat
  /-- LOAD_MODE. -/
  loadMode : LoadMode
deriving DecidableEq, Repr

/-- STACK_CAP, the usable capacity of the stack (R7; the conflict C1 is resolved for STACK_SIZE - 1). Every rule is
written against it and never against STACK_SIZE. -/
def Config.stackCap (c : Config) : Nat := c.stackSize - 1

/-- The constraints of R8. -/
abbrev Config.wf (c : Config) : Prop := 1 ≤ c.stackSize ∧ 1 ≤ c.nregs ∧ 1 ≤ c.maxInsts

/-- The least number of bits, at least 1, that holds `n`: the `ceil(log2(n + 1))` of R23 and R27. -/
def Config.bitsFor (n : Nat) : Nat := Nat.log2 n + 1

/-- The hardware width of `sp` (R23). -/
def Config.spWidth (c : Config) : Nat := Config.bitsFor c.stackCap

/-- The hardware width of `pc` and `fault_pc` (R27, R35). -/
def Config.pcWidth (c : Config) : Nat := Config.bitsFor c.maxInsts

/-- REF, a configuration named by R9. DESIGN CHOICE: the one `State.reset` starts from (log 1). -/
def Config.ref : Config := { stackSize := 256, nregs := 16, maxInsts := 65536, loadMode := .strict }

/-- TINY, the other configuration named by R9. -/
def Config.tiny : Config := { stackSize := 4, nregs := 2, maxInsts := 32, loadMode := .strict }

end Sys2Proof
end

