-- ==== Sys2Proof/Machine/State.lean ====
section
/-!
DEFINITION. The architectural state of the core as plain data (10_state.md R20 to R41) and its value after reset.
-/

namespace Sys2Proof.Machine

/-- The instruction buffer's contents: (address, byte) pairs, addresses strictly rising, no byte 0x00 listed. An
unlisted address holds its reset content 0x00 (R31, R41). -/
abbrev Memory := List Host.Cell

/-- The states of the dispatch FSM (R32, R98). -/
inductive Status
  | running
  | halted
  | faulted
deriving DecidableEq, Repr

/-- The fault kinds (R18, R171), the values of `cause`. -/
inductive FaultKind
  /-- R172 -/
  | invalidOpcode
  /-- R173 -/
  | stackOverflow
  /-- R174 -/
  | stackUnderflow
  /-- R175 -/
  | truncatedProgram
  /-- R176 -/
  | divideByZero
  /-- R177, raised by the loader only -/
  | programTooLarge
deriving DecidableEq, Repr

/-- The Execution State of R20, with the configuration the machine was built with. -/
structure State where
  /-- The design-time parameters (R6, R19). The model's own field: no step writes it (log 1). -/
  cfg : Config
  /-- The operand stack: STACK_SIZE slots, slot 0 first; popped slots keep their word (R22, R24). -/
  stack : List Word
  /-- The index of the next free slot (R23). -/
  sp : Nat
  /-- The register file: NREGS registers (R25). -/
  x : List Word
  /-- The instruction buffer (R31). -/
  imem : Memory
  /-- The address of the next opcode byte (R27). -/
  pc : Nat
  /-- The dispatch FSM's state (R32). -/
  status : Status
  /-- The fault kind, or `none` (R33). -/
  cause : Option FaultKind
  /-- The address of the faulting instruction's opcode byte (R35). -/
  faultPc : Nat
  /-- The words emitted by PRINT since reset, oldest first (R36). -/
  out : List Word
deriving DecidableEq, Repr

/-- Where the machine stops because a state is none of the spec's states. Faults the SPEC names are not these: they are
taken, and give a next state (R180, log 2). -/
inductive Fault
  /-- Raised by a meaning that reads or writes a stack slot the state does not hold, which is possible only where `stack`
  has fewer slots than its configuration says. Safe: no state of the spec has it, and `State.Inv` excludes it (log 3). -/
  | noSuchSlot
  /-- Raised by LOAD or STORE of a register below NREGS that the state does not hold, which is possible only where `x` has
  fewer registers than its configuration says. Safe: no state of the spec has it, and `State.Inv` excludes it (log 3). -/
  | noSuchRegister
deriving DecidableEq, Repr

/-- Why an instruction has no meaning. -/
inductive Refusal
  /-- Raised by an arm of `exec` that has no meaning yet; no arm of this model does. Safe: the machine stops. -/
  | notModelled (mnemonic : String)
deriving DecidableEq, Repr

/-- What a meaning, and a step, answers. -/
abbrev Result := Host.Outcome State Fault Refusal

/-- Reset, for a core built with configuration `c`: every field as R41 and R201 give it, the instruction buffer all zero. -/
def State.resetOf (c : Config) : State :=
  { cfg := c
    stack := List.replicate c.stackSize 0#32
    sp := 0
    x := List.replicate c.nregs 0#32
    imem := []
    pc := 0
    status := .running
    cause := none
    faultPc := 0
    out := [] }

/-- The machine right after reset (R41), no program loaded: the run of the empty program (R204, L = 0). DESIGN CHOICE: the
configuration is REF (log 1, log 8). -/
def State.reset : State := State.resetOf Config.ref

end Sys2Proof.Machine
end

