-- ==== Sys2Proof/Machine/Ops.lean ====
section
/-!
DEFINITION. The named operations over the state that the meanings share: the instruction buffer, fault entry, the moves
of `sp` and `pc`, the writes of the stack, the registers and the output log.
-/

namespace Sys2Proof.Machine

/-! ### The instruction buffer (20_memory.md) -/

/-- The byte at address `a`: the listed one, or the reset content 0x00 (R41, R57). -/
def Memory.read (m : Memory) (a : Nat) : Byte :=
  match m with
  | [] => 0#8
  | (a', b) :: rest => if a' = a then b else Memory.read rest a

/-- Write the byte `b` at address `a`, keeping the canonical form: writing 0x00 unlists the address. -/
def Memory.write (m : Memory) (a : Nat) (b : Byte) : Memory :=
  match m with
  | [] => if b = 0#8 then [] else [(a, b)]
  | (a', b') :: rest =>
    if a < a' then (if b = 0#8 then (a', b') :: rest else (a, b) :: (a', b') :: rest)
    else if a = a' then (if b = 0#8 then rest else (a, b) :: rest)
    else (a', b') :: Memory.write rest a b

/-- Write consecutive bytes from address `a` up: `MemWrite(a, 1, _)` for each of them (R14, R204). -/
def Memory.writeBytes (m : Memory) (a : Nat) : List Byte → Memory
  | [] => m
  | b :: rest => Memory.writeBytes (Memory.write m a b) (a + 1) rest

/-- The listed addresses are strictly rising from `lo` on and none holds 0x00. -/
def Memory.wfFrom (lo : Nat) : Memory → Bool
  | [] => true
  | (a, b) :: rest => decide (lo ≤ a) && b != 0#8 && Memory.wfFrom (a + 1) rest

/-- The canonical form of the instruction buffer. -/
def Memory.wf (m : Memory) : Bool := Memory.wfFrom 0 m

/-- Every listed address is below `limit`: the buffer's size. -/
def Memory.below (limit : Nat) (m : Memory) : Bool := m.all fun cell => decide (cell.1 < limit)

/-- The bytes at `a`, `a+1`, … , at most `n` of them, ending where the instruction space ends: no byte at or beyond
MAX_INSTS is read (R56). -/
def State.bytesFrom (s : State) (a : Nat) : Nat → List Byte
  | 0 => []
  | n + 1 => if a < s.cfg.maxInsts then Memory.read s.imem a :: State.bytesFrom s (a + 1) n else []

/-- `MemRead(addr, n)` (R14): the unsigned little-endian value of `n` bytes that lie inside the instruction space. -/
def State.memRead (s : State) (addr n : Nat) : Nat := leNat (s.bytesFrom addr n)

/-! ### Fault entry (60_exceptions.md R180 to R183): there is no return from it -/

/-- Fault entry: `status <- Faulted; cause <- F; fault_pc <- pc0`, and nothing else changes (R16, R180, R182). `pc` is
still `pc0` here, since an instruction that faults has written nothing. -/
def State.faultEntry (k : FaultKind) (s : State) : State :=
  { s with status := .faulted, cause := some k, faultPc := s.pc }

/-- `raise F` (R16): the step ends in the fault entry's state. -/
def raise (k : FaultKind) (s : State) : Result := .next (s.faultEntry k)

/-! ### Writes an instruction makes -/

/-- `pc <- pc0 + n`: fall through to the next instruction (R95). -/
def State.advance (n : Nat) (s : State) : State := { s with pc := s.pc + n }

/-- A taken jump to `t`: `pc <- t` if the target is valid, else fall through the three bytes of the jump (R131). -/
def State.jumpTo (t : Nat) (s : State) : State :=
  { s with pc := if t < s.cfg.maxInsts then t else s.pc + 3 }

/-- `stack[sp] <- v; sp <- sp + 1` (R15, after the check). -/
def State.pushed (v : Word) (s : State) : State :=
  { s with stack := s.stack.set s.sp v, sp := s.sp + 1 }

/-- `sp <- sp - 1`: the top is no longer live, its slot keeps its word (R15, R24). -/
def State.dropped (s : State) : State := { s with sp := s.sp - 1 }

/-- `stack[sp-2] <- v; sp <- sp - 1`: the result of a two-operand instruction (R140). -/
def State.replaceTwo (v : Word) (s : State) : State :=
  { s with stack := s.stack.set (s.sp - 2) v, sp := s.sp - 1 }

/-- `x[r] <- v` (R13). -/
def State.setReg (r : Nat) (v : Word) (s : State) : State := { s with x := s.x.set r v }

/-- `Emit(v)`: append to the output log; it never fails (R17, R36). -/
def State.emit (v : Word) (s : State) : State := { s with out := s.out ++ [v] }

/-- `status <- Halted` (R164). -/
def State.halt (s : State) : State := { s with status := .halted }

end Sys2Proof.Machine
end

