-- ==== Sys2Proof/Machine/Operands.lean ====
section
/-!
DEFINITION. The operand forms. What the encoding carries (the immediate, the register index, the jump target) is pulled
out by the decoder; here are the stack operands with their underflow and overflow checks (00_scope.md R15, 10_state.md R24)
and the register operand with its range test (42_register_ops.md R120). A check that fails raises from the untouched state,
so nothing of the instruction takes effect (R16).
-/

namespace Sys2Proof.Machine

/-- An instruction that consumes the top of stack: `if sp = 0 then raise StackUnderflow; v := stack[sp - 1]` (R15). -/
def withTop (s : State) (f : Word → Result) : Result :=
  if s.sp = 0 then raise .stackUnderflow s
  else
    match s.stack[s.sp - 1]? with
    | some v => f v
    | none => .fault .noSuchSlot

/-- An instruction that consumes two values: `if sp < 2 then raise StackUnderflow; b := stack[sp - 1]; a := stack[sp - 2]`
(R140, R142). The continuation takes `a`, the value pushed first, then `b`, the top. -/
def withTwo (s : State) (f : Word → Word → Result) : Result :=
  if s.sp < 2 then raise .stackUnderflow s
  else
    match s.stack[s.sp - 2]?, s.stack[s.sp - 1]? with
    | some a, some b => f a b
    | _, _ => .fault .noSuchSlot

/-- An instruction that pushes without popping first: `if sp >= STACK_CAP then raise StackOverflow` (R15, R173). -/
def withRoom (s : State) (k : Result) : Result :=
  if s.cfg.stackCap ≤ s.sp then raise .stackOverflow s
  else if s.sp < s.stack.length then k
  else .fault .noSuchSlot

/-- The register index is in range (R120). -/
def State.regInRange (s : State) (r : Nat) : Bool := decide (r < s.cfg.nregs)

/-- Read register `r`, which is in range: `x[r]` (R13). -/
def withReg (s : State) (r : Nat) (f : Word → Result) : Result :=
  match s.x[r]? with
  | some v => f v
  | none => .fault .noSuchRegister

/-- Write register `r`, which is in range, and end in the state `after` with it written (R13). -/
def writeReg (r : Nat) (v : Word) (after : State) : Result :=
  if r < after.x.length then .next (after.setReg r v) else .fault .noSuchRegister

end Sys2Proof.Machine
end

