-- ==== Sys2Proof/Machine/Arithmetic.lean ====
section
/-!
DEFINITION. The ALU instructions ADD, SUB, MUL, DIV (44_arithmetic.md).
-/

namespace Sys2Proof.Machine

/-- The common end of the four: the result replaces the two operands and `pc` advances by one (R142). -/
def State.result (v : Word) (s : State) : State := (s.replaceTwo v).advance 1

/-- ADD (R143). -/
def execAdd (s : State) : Result := withTwo s fun a b => .next (s.result (aluAdd a b))

/-- SUB (R144): the first popped, `b`, is subtracted from the second, `a`. -/
def execSub (s : State) : Result := withTwo s fun a b => .next (s.result (aluSub a b))

/-- MUL (R145). -/
def execMul (s : State) : Result := withTwo s fun a b => .next (s.result (aluMul a b))

/-- DIV (R146): the underflow check comes before the test of the divisor. -/
def execDiv (s : State) : Result :=
  withTwo s fun a b => if b = 0#32 then raise .divideByZero s else .next (s.result (aluTdiv a b))

end Sys2Proof.Machine
end

