-- ==== Sys2Proof/Machine/Flags.lean ====
section
/-!
DEFINITION. The core has no flags, no condition codes and no predicate registers: nothing here is state (10_state.md R30).
The only condition an instruction tests is whether the word it popped is zero.
-/

namespace Sys2Proof.Machine

/-- The test of JZ, and its negation the test of JNZ: the whole word compared with 0 (R30, R133, R134). -/
def isZero (v : Word) : Bool := v == 0#32

end Sys2Proof.Machine
end

