-- ==== Sys2Proof/Machine/Jump.lean ====
section
/-!
DEFINITION. Control transfer: JMP, JZ, JNZ (43_jumps.md).
-/

namespace Sys2Proof.Machine

/-- JMP `t` (R132). -/
def execJmp (t : Nat) (s : State) : Result := .next (s.jumpTo t)

/-- JZ `t` (R133): the value is popped on both paths. -/
def execJz (t : Nat) (s : State) : Result :=
  withTop s fun v => .next (if isZero v then s.dropped.jumpTo t else s.dropped.advance 3)

/-- JNZ `t` (R134): the value is popped on both paths. -/
def execJnz (t : Nat) (s : State) : Result :=
  withTop s fun v => .next (if isZero v then s.dropped.advance 3 else s.dropped.jumpTo t)

end Sys2Proof.Machine
end

