-- ==== Sys2Proof/Machine/Register.lean ====
section
/-!
DEFINITION. The register instructions LOAD and STORE (42_register_ops.md). They do not touch the instruction buffer.
-/

namespace Sys2Proof.Machine

/-- LOAD `r` (R121): the range test comes before the overflow test; out of range, nothing is pushed and nothing faults. -/
def execLoad (r : Nat) (s : State) : Result :=
  if s.regInRange r then
    withRoom s (withReg s r fun v => .next ((s.pushed v).advance 2))
  else .next (s.advance 2)

/-- STORE `r` (R123): the pop comes before the range test; out of range, the popped value is dropped. -/
def execStore (r : Nat) (s : State) : Result :=
  withTop s fun v =>
    if s.regInRange r then writeReg r v (s.dropped.advance 2) else .next (s.dropped.advance 2)

end Sys2Proof.Machine
end

