-- ==== Sys2Proof/Machine/Stack.lean ====
section
/-!
DEFINITION. The stack instructions PUSH and POP (41_stack_ops.md).
-/

namespace Sys2Proof.Machine

/-- PUSH `n` (R111). -/
def execPush (n : Word) (s : State) : Result :=
  withRoom s (.next ((s.pushed n).advance 5))

/-- POP (R112): the value is dropped without being read. -/
def execPop (s : State) : Result :=
  if s.sp = 0 then raise .stackUnderflow s else .next (s.dropped.advance 1)

end Sys2Proof.Machine
end

