-- ==== Sys2Proof/Machine/System.lean ====
section
/-!
DEFINITION. The system instructions NOP, PRINT, STOP (45_system_ops.md).
-/

namespace Sys2Proof.Machine

/-- NOP (R161). -/
def execNop (s : State) : Result := .next (s.advance 1)

/-- PRINT (R162): pop the top of stack and emit it. -/
def execPrint (s : State) : Result := withTop s fun v => .next ((s.dropped.emit v).advance 1)

/-- STOP (R164). -/
def execStop (s : State) : Result := .next ((s.advance 1).halt)

end Sys2Proof.Machine
end

