-- ==== Sys2Proof/Machine/Fetch.lean ====
section
/-!
DEFINITION. Opcode fetch, classification and operand fetch (40_fetch_decode_dispatch.md R91 to R94), and what is laid
where the next fetch reads.
-/

namespace Sys2Proof.Machine

/-- Decode the instruction whose opcode byte is at address `a`, from the bytes of the instruction space there (R97). -/
def State.decodeAt (s : State) (a : Nat) : Decoded := decode (s.bytesFrom a maxInstrBytes)

/-- Fetch and decode at `pc`: the instruction, or the fault that fetching raises (R91 to R93, U3, U8). -/
def fetch (s : State) : Except FaultKind Instr :=
  match s.decodeAt s.pc with
  | .instr i _ => .ok i
  | .invalid _ => .error .invalidOpcode
  | .truncated => .error .truncatedProgram

/-- Lay `bytes` at `pc`, as far as the instruction space reaches, with the core Running and no fault recorded. -/
def State.place (bytes : List Byte) (s : State) : State :=
  { s with
    imem := Memory.writeBytes s.imem s.pc (bytes.take (s.cfg.maxInsts - s.pc))
    status := .running
    cause := none
    faultPc := 0 }

end Sys2Proof.Machine
end

