-- ==== Sys2Proof/Machine/Step.lean ====
section
/-!
DEFINITION. One step of the dispatch FSM (40_fetch_decode_dispatch.md R90, R96, R98, R99), and the placing of one
instruction where the next step fetches.
-/

namespace Sys2Proof.Machine

/-- Running: fetch, then execute or raise (R96). Halted and Faulted: nothing changes until reset (R99, log 9). -/
def step (s : State) : Host.Outcome State Fault Refusal :=
  match s.status with
  | .running =>
    match fetch s with
    | .ok i => exec i s
    | .error k => raise k s
  | .halted => .next s
  | .faulted => .next s

/-- `s` with the instruction of bits `w` at `pc` (log 8). -/
def State.withFetchWord (s : State) (nbits w : Nat) : State := s.place (tableBytes nbits w)

end Sys2Proof.Machine
end

