-- ==== Sys2Proof/Machine/HostView.lean ====
section
/-!
DEFINITION. What the host sees beside the state itself: the numeric codes of `status` and `cause` (10_state.md R34,
60_exceptions.md R171), the text of the output log (45_system_ops.md R163), and the listing of an instruction
(30_encoding.md R84). No step reads any of it.
-/

namespace Sys2Proof.Machine

/-- The 2-bit code of `status` (R34). -/
def statusCode : Status → BitVec 2
  | .running => 0
  | .halted => 1
  | .faulted => 2

/-- The code of `cause` (R171). -/
def causeCode : Option FaultKind → Nat
  | none => 0
  | some .invalidOpcode => 1
  | some .stackOverflow => 2
  | some .stackUnderflow => 3
  | some .truncatedProgram => 4
  | some .divideByZero => 5
  | some .programTooLarge => 6

/-- The base-10 digits of `n` in ASCII, most significant first, without leading zeros; `fuel` bounds their number. -/
def decimalDigits : Nat → Nat → List Byte
  | 0, _ => []
  | fuel + 1, n =>
    if n < 10 then [BitVec.ofNat 8 (0x30 + n)]
    else decimalDigits fuel (n / 10) ++ [BitVec.ofNat 8 (0x30 + n % 10)]

/-- One emitted word as a line of text (R163). The magnitude of an `Int32` has at most ten digits. -/
def renderLine (v : Word) : List Byte :=
  (if v.toInt < 0 then [0x2D] else []) ++ decimalDigits 10 v.toInt.natAbs ++ [0x0A]

/-- The text of the whole log, oldest value first (R163). -/
def renderOut (out : List Word) : List Byte := out.flatMap renderLine

/-- The mnemonic (R76). -/
def mnemonic : Instr → String
  | .nop => "NOP"
  | .push _ => "PUSH"
  | .pop => "POP"
  | .load _ => "LOAD"
  | .store _ => "STORE"
  | .jmp _ => "JMP"
  | .jz _ => "JZ"
  | .jnz _ => "JNZ"
  | .add => "ADD"
  | .sub => "SUB"
  | .mul => "MUL"
  | .div => "DIV"
  | .print => "PRINT"
  | .stop => "STOP"

/-- The operand as a listing shows it: PUSH's signed value, else the unsigned one; none for a one-byte instruction (R84). -/
def listedOperand : Instr → Option Int
  | .push n => some n.toInt
  | .load r | .store r => some r
  | .jmp t | .jz t | .jnz t => some t
  | .nop | .pop | .add | .sub | .mul | .div | .print | .stop => none

/-- One instruction in the notation of R84: `MNEMONIC` or `MNEMONIC operand`, the operand in decimal. -/
def listing (i : Instr) : String :=
  match listedOperand i with
  | none => mnemonic i
  | some v => mnemonic i ++ " " ++ toString v

end Sys2Proof.Machine
end

