-- ==== Sys2Proof/Machine/Loader.lean ====
section
/-!
DEFINITION. The host's transactions before a run: reset, load, start (70_reset_and_hazards.md R200 to R207). They are not
steps: the host has no move while the core runs, but for a reset that abandons the run (R209, log 6).
-/

namespace Sys2Proof.Machine

/-- Reset, from any state: nothing of it survives but the design-time parameters (R201). -/
def State.hostReset (s : State) : State := State.resetOf s.cfg

/-- Load a program into a core held in reset (R203 to R206): the bytes go to address 0 and up. A program longer than the
buffer raises ProgramTooLarge at position 0 with nothing copied (strict, R205), or is cut to the buffer (permissive, R206). -/
def load (bytes : List Byte) (s : State) : State :=
  if bytes.length ≤ s.cfg.maxInsts then { s with imem := Memory.writeBytes s.imem 0 bytes }
  else
    match s.cfg.loadMode with
    | .strict => { s with status := .faulted, cause := some .programTooLarge, faultPc := 0 }
    | .permissive => { s with imem := Memory.writeBytes s.imem 0 (bytes.take s.cfg.maxInsts) }

/-- Reset, load, start: the state at the moment the run of `bytes` starts (R41, R207, R208). -/
def boot (c : Config) (bytes : List Byte) : State := load bytes (State.resetOf c)

end Sys2Proof.Machine
end

