-- ==== Sys2Proof/Machine/Run.lean ====
section
/-!
DEFINITION. A run under fuel from outside the machine, and the host's contract (70_reset_and_hazards.md R208, R213;
40_fetch_decode_dispatch.md R99).
-/

namespace Sys2Proof.Machine

/-- `n` steps. The machine has no step budget: the fuel is not its own (R100, R213). -/
def runFor : Nat → State → Result
  | 0, s => .next s
  | n + 1, s =>
    match step s with
    | .next t => runFor n t
    | .fault f => .fault f
    | .refused r => .refused r

/-- The execution parts of some instructions, one after the other, fetching left aside: what the laws of files 41 to 43
speak of (R113, R124). It stops where one of them does not answer a next state. -/
def execSeq : List Instr → State → Result
  | [], s => .next s
  | i :: rest, s =>
    match exec i s with
    | .next t => execSeq rest t
    | .fault f => .fault f
    | .refused r => .refused r

/-- The outcome the host reads at the end of a run (R208). -/
inductive RunOutcome
  | completed
  | faulted (kind : FaultKind) (position : Nat)
deriving DecidableEq, Repr

/-- The outcome of a state: none while the run has not ended (R99, R208). -/
def outcome (s : State) : Option RunOutcome :=
  match s.status with
  | .running => none
  | .halted => some .completed
  | .faulted => s.cause.map fun k => .faulted k s.faultPc

/-- `run(bytes)` under fuel: the pair (outcome, out) that R208 calls the observable result, once the run has ended. -/
def hostRun (fuel : Nat) (c : Config) (bytes : List Byte) : Option (RunOutcome × List Word) :=
  match runFor fuel (boot c bytes) with
  | .next t => (outcome t).map fun o => (o, t.out)
  | .fault _ => none
  | .refused _ => none

end Sys2Proof.Machine
end

