-- ==== Sys2Proof/Safety.lean ====
section
/-!
DEFINITION. What the claims speak of: the invariant of the spec's states (10_state.md R39), the states that differ in dead
stack slots only (R24), the jump a step takes (43_jumps.md R136), and the value of a string of decimal digits (R163).
-/

namespace Sys2Proof.Machine

/-- The states of the spec: the parameters obey R8, the arrays have the sizes R22 and R25 give them, the instruction
buffer is canonical and inside its MAX_INSTS bytes (R31), and R39 holds with R33, R35 and R182 about the fault registers. -/
structure State.Inv (s : State) : Prop where
  cfg_wf : s.cfg.wf
  stack_length : s.stack.length = s.cfg.stackSize
  x_length : s.x.length = s.cfg.nregs
  imem_wf : Memory.wf s.imem = true
  imem_below : Memory.below s.cfg.maxInsts s.imem = true
  sp_le : s.sp ≤ s.cfg.stackCap
  pc_le : s.pc ≤ s.cfg.maxInsts
  faulted_iff : s.status = .faulted ↔ s.cause ≠ none
  faultPc_eq : s.faultPc = if s.status = .faulted then s.pc else 0

/-- `t` differs from `s` at most in stack slots that are not live (R24). -/
structure State.SameLive (s t : State) : Prop where
  rest : t = { s with stack := t.stack }
  length : t.stack.length = s.stack.length
  live : ∀ j, j < s.sp → t.stack[j]? = s.stack[j]?

/-- The target of the jump that the step from `s` takes, if it takes one: the instruction at `pc` is a jump, its condition
holds and its target is valid (R131 to R134). -/
def State.takenTarget (s : State) : Option Nat :=
  match fetch s with
  | .ok (.jmp t) => if t < s.cfg.maxInsts then some t else none
  | .ok (.jz t) => if s.sp ≠ 0 ∧ s.stack[s.sp - 1]? = some 0#32 ∧ t < s.cfg.maxInsts then some t else none
  | .ok (.jnz t) =>
    if s.sp ≠ 0 ∧ s.stack[s.sp - 1]? ≠ some 0#32 ∧ t < s.cfg.maxInsts then some t else none
  | _ => none

/-- The number a string of ASCII decimal digits stands for, most significant digit first. -/
def digitsValue (ds : List Byte) : Nat := ds.foldl (fun acc d => 10 * acc + (d.toNat - 0x30)) 0

end Sys2Proof.Machine
end

