-- ==== Sys2Proof/Certificates/Slice0/Obligations.lean ====
section
/-!
DEFINITION. What is claimed of the model, for the provers: the spec's numbered rules about what each instruction and the
machine do, frames, laws, invariants, and the agreement of decoder and encoder. Nothing is proved here.
-/

open Sys2Proof Sys2Proof.Machine

/-! ### Encoding (30_encoding.md) -/

/-- Words written out from R71 and R76, and from the spec's decode vectors V1 to V14, decode to what they stand for. -/
def Obligations.SpecWordsDecode : Prop :=
  decode [0x00] = .instr .nop 1 ∧
  decode [0x01, 0x78, 0x56, 0x34, 0x12] = .instr (.push 305419896) 5 ∧
  decode [0x01, 0x00, 0x00, 0x00, 0x80] = .instr (.push (BitVec.ofInt 32 (-2147483648))) 5 ∧
  decode [0x02] = .instr .pop 1 ∧
  decode [0x03, 0xFF] = .instr (.load 255) 2 ∧
  decode [0x04, 0x00] = .instr (.store 0) 2 ∧
  decode [0x05, 0x34, 0x12] = .instr (.jmp 4660) 3 ∧
  decode [0x06, 0xFF, 0xFF] = .instr (.jz 65535) 3 ∧
  decode [0x07, 0x00, 0x80] = .instr (.jnz 32768) 3 ∧
  decode [0x08] = .instr .add 1 ∧ decode [0x09] = .instr .sub 1 ∧
  decode [0x0A] = .instr .mul 1 ∧ decode [0x0B] = .instr .div 1 ∧
  decode [0x0C] = .instr .print 1 ∧ decode [0x0D] = .instr .stop 1 ∧
  decode [0x0E] = .invalid 0x0E ∧ decode [0xFF, 0x00] = .invalid 0xFF ∧
  decode [] = .truncated ∧ decode [0x01, 0x01, 0x00, 0x00] = .truncated

/-- Every opcode byte outside the table of R76, that is every value from 0x0E to 0xFF, is invalid, and no other (R79). -/
def Obligations.InvalidOpcodesAreThoseAboveTheTable : Prop :=
  ∀ (op : Byte) (rest : List Byte), decode (op :: rest) = .invalid op ↔ 0x0E ≤ op.toNat

/-- Decoding an encoded instruction gives it back with its length, whatever bytes follow, with every operand at every
value its field admits (R71 to R76, R82). -/
def Obligations.DecodeOfEncodeIsTheInstruction : Prop :=
  ∀ (i : Instr) (rest : List Byte), i.WellFormed = true → decode (encode i ++ rest) = .instr i i.length

/-- What the decoder reads is well formed, has the length it reports, and encodes back to exactly the bytes it was read
from: no bit of them is dropped (R82). -/
def Obligations.EncodeOfDecodeIsTheBytes : Prop :=
  ∀ (bs : List Byte) (i : Instr) (n : Nat), decode bs = .instr i n →
    i.WellFormed = true ∧ n = i.length ∧ n ≤ bs.length ∧ encode i = bs.take n

/-- Encoding emits the opcode byte and then the operand's low-order bytes, least significant first; decoding a byte string
that consists only of valid, untruncated instructions and encoding the result reproduces the string exactly; and every
encoded stream of well-formed instructions is such a string. The spec marks R82 as its own inference from R73 to R75. -/
def Obligations.StreamRoundTrip : Prop :=
  (∀ i : Instr, (encode i).length = 1 + i.operandWidth ∧ (encode i)[0]? = some i.opcodeByte ∧
    ∀ k, k < i.operandWidth → (encode i)[k + 1]? = some (BitVec.ofNat 8 (i.rawOperand / 256 ^ k))) ∧
  (∀ (fuel : Nat) (bs : List Byte) (is : List Instr), decodeStream fuel bs = some is → encodeStream is = bs) ∧
  (∀ is : List Instr, (∀ i ∈ is, i.WellFormed = true) → decodeStream is.length (encodeStream is) = some is)

/-! ### The instructions (files 41 to 45): encoding, completion with the whole next state, and faults -/

/-- R161. -/
def Obligations.NopAdvancesOnly : Prop :=
  (∀ rest, decode (0x00 :: rest) = .instr .nop 1) ∧
  ∀ s : State, exec .nop s = .next { s with pc := s.pc + 1 }

/-- R111. -/
def Obligations.PushWritesTheNextSlot : Prop :=
  (∀ (n : Word) rest, decode (0x01 :: n.extractLsb' 0 8 :: n.extractLsb' 8 8 :: n.extractLsb' 16 8 ::
      n.extractLsb' 24 8 :: rest) = .instr (.push n) 5) ∧
  (∀ (n : Word) (s : State), s.Inv → s.sp < s.cfg.stackCap →
    exec (.push n) s = .next { s with stack := s.stack.set s.sp n, sp := s.sp + 1, pc := s.pc + 5 }) ∧
  (∀ (n : Word) (s : State), s.cfg.stackCap ≤ s.sp →
    exec (.push n) s = .next { s with status := .faulted, cause := some .stackOverflow, faultPc := s.pc })

/-- R112. The popped slot keeps its word. -/
def Obligations.PopDropsTheTop : Prop :=
  (∀ rest, decode (0x02 :: rest) = .instr .pop 1) ∧
  (∀ s : State, s.sp ≠ 0 → exec .pop s = .next { s with sp := s.sp - 1, pc := s.pc + 1 }) ∧
  (∀ s : State, s.sp = 0 →
    exec .pop s = .next { s with status := .faulted, cause := some .stackUnderflow, faultPc := s.pc })

/-- R121: the range test comes first, so an index at or above NREGS never faults, even on a full stack. -/
def Obligations.LoadPushesTheRegister : Prop :=
  (∀ (r : Byte) rest, decode (0x03 :: r :: rest) = .instr (.load r.toNat) 2) ∧
  (∀ (r : Nat) (v : Word) (s : State), s.Inv → s.x[r]? = some v → s.sp < s.cfg.stackCap →
    exec (.load r) s = .next { s with stack := s.stack.set s.sp v, sp := s.sp + 1, pc := s.pc + 2 }) ∧
  (∀ (r : Nat) (s : State), s.cfg.nregs ≤ r → exec (.load r) s = .next { s with pc := s.pc + 2 }) ∧
  (∀ (r : Nat) (s : State), r < s.cfg.nregs → s.cfg.stackCap ≤ s.sp →
    exec (.load r) s = .next { s with status := .faulted, cause := some .stackOverflow, faultPc := s.pc })

/-- R123: the pop comes first, so an empty stack faults whatever the index; an index at or above NREGS drops the value. -/
def Obligations.StorePopsIntoTheRegister : Prop :=
  (∀ (r : Byte) rest, decode (0x04 :: r :: rest) = .instr (.store r.toNat) 2) ∧
  (∀ (r : Nat) (v : Word) (s : State), s.Inv → s.sp ≠ 0 → s.stack[s.sp - 1]? = some v → r < s.cfg.nregs →
    exec (.store r) s = .next { s with sp := s.sp - 1, x := s.x.set r v, pc := s.pc + 2 }) ∧
  (∀ (r : Nat) (s : State), s.Inv → s.sp ≠ 0 → s.cfg.nregs ≤ r →
    exec (.store r) s = .next { s with sp := s.sp - 1, pc := s.pc + 2 }) ∧
  (∀ (r : Nat) (s : State), s.sp = 0 →
    exec (.store r) s = .next { s with status := .faulted, cause := some .stackUnderflow, faultPc := s.pc })

/-- R132, with the target test of R131. -/
def Obligations.JmpGoesToAValidTarget : Prop :=
  (∀ (lo hi : Byte) rest, decode (0x05 :: lo :: hi :: rest) = .instr (.jmp (lo.toNat + 256 * hi.toNat)) 3) ∧
  (∀ (t : Nat) (s : State), t < s.cfg.maxInsts → exec (.jmp t) s = .next { s with pc := t }) ∧
  (∀ (t : Nat) (s : State), s.cfg.maxInsts ≤ t → exec (.jmp t) s = .next { s with pc := s.pc + 3 })

/-- R133: the value is popped on both paths; an invalid target is ignored after the pop. -/
def Obligations.JzPopsAndJumpsOnZero : Prop :=
  (∀ (lo hi : Byte) rest, decode (0x06 :: lo :: hi :: rest) = .instr (.jz (lo.toNat + 256 * hi.toNat)) 3) ∧
  (∀ (t : Nat) (v : Word) (s : State), s.sp ≠ 0 → s.stack[s.sp - 1]? = some v →
    exec (.jz t) s =
      .next { s with sp := s.sp - 1, pc := if v = 0#32 ∧ t < s.cfg.maxInsts then t else s.pc + 3 }) ∧
  (∀ (t : Nat) (s : State), s.sp = 0 →
    exec (.jz t) s = .next { s with status := .faulted, cause := some .stackUnderflow, faultPc := s.pc })

/-- R134: as JZ, with the condition inverted. -/
def Obligations.JnzPopsAndJumpsOnNonzero : Prop :=
  (∀ (lo hi : Byte) rest, decode (0x07 :: lo :: hi :: rest) = .instr (.jnz (lo.toNat + 256 * hi.toNat)) 3) ∧
  (∀ (t : Nat) (v : Word) (s : State), s.sp ≠ 0 → s.stack[s.sp - 1]? = some v →
    exec (.jnz t) s =
      .next { s with sp := s.sp - 1, pc := if v ≠ 0#32 ∧ t < s.cfg.maxInsts then t else s.pc + 3 }) ∧
  (∀ (t : Nat) (s : State), s.sp = 0 →
    exec (.jnz t) s = .next { s with status := .faulted, cause := some .stackUnderflow, faultPc := s.pc })

/-- R143: the exact sum, reduced to 32 bits. -/
def Obligations.AddReplacesTwoByTheirSum : Prop :=
  (∀ rest, decode (0x08 :: rest) = .instr .add 1) ∧
  (∀ (a b : Word) (s : State), 2 ≤ s.sp → s.stack[s.sp - 2]? = some a → s.stack[s.sp - 1]? = some b →
    exec .add s = .next { s with
      stack := s.stack.set (s.sp - 2) (BitVec.ofInt 32 (a.toInt + b.toInt)), sp := s.sp - 1, pc := s.pc + 1 }) ∧
  (∀ s : State, s.sp < 2 →
    exec .add s = .next { s with status := .faulted, cause := some .stackUnderflow, faultPc := s.pc })

/-- R144: the top is subtracted from the value under it. -/
def Obligations.SubReplacesTwoByTheirDifference : Prop :=
  (∀ rest, decode (0x09 :: rest) = .instr .sub 1) ∧
  (∀ (a b : Word) (s : State), 2 ≤ s.sp → s.stack[s.sp - 2]? = some a → s.stack[s.sp - 1]? = some b →
    exec .sub s = .next { s with
      stack := s.stack.set (s.sp - 2) (BitVec.ofInt 32 (a.toInt - b.toInt)), sp := s.sp - 1, pc := s.pc + 1 }) ∧
  (∀ s : State, s.sp < 2 →
    exec .sub s = .next { s with status := .faulted, cause := some .stackUnderflow, faultPc := s.pc })

/-- R145: the low 32 bits of the exact product. -/
def Obligations.MulReplacesTwoByTheirProduct : Prop :=
  (∀ rest, decode (0x0A :: rest) = .instr .mul 1) ∧
  (∀ (a b : Word) (s : State), 2 ≤ s.sp → s.stack[s.sp - 2]? = some a → s.stack[s.sp - 1]? = some b →
    exec .mul s = .next { s with
      stack := s.stack.set (s.sp - 2) (BitVec.ofInt 32 (a.toInt * b.toInt)), sp := s.sp - 1, pc := s.pc + 1 }) ∧
  (∀ s : State, s.sp < 2 →
    exec .mul s = .next { s with status := .faulted, cause := some .stackUnderflow, faultPc := s.pc })

/-- R146, with the quotient of R147 (truncated toward zero, reduced to 32 bits): the underflow check comes before the test
of the divisor. -/
def Obligations.DivReplacesTwoByTheirQuotient : Prop :=
  (∀ rest, decode (0x0B :: rest) = .instr .div 1) ∧
  (∀ (a b : Word) (s : State), 2 ≤ s.sp → s.stack[s.sp - 2]? = some a → s.stack[s.sp - 1]? = some b → b ≠ 0#32 →
    exec .div s = .next { s with
      stack := s.stack.set (s.sp - 2) (BitVec.ofInt 32 (a.toInt.sign * b.toInt.sign * (a.toInt.natAbs / b.toInt.natAbs : Nat))),
      sp := s.sp - 1, pc := s.pc + 1 }) ∧
  (∀ s : State, 2 ≤ s.sp → s.stack[s.sp - 1]? = some 0#32 →
    exec .div s = .next { s with status := .faulted, cause := some .divideByZero, faultPc := s.pc }) ∧
  (∀ s : State, s.sp < 2 →
    exec .div s = .next { s with status := .faulted, cause := some .stackUnderflow, faultPc := s.pc })

/-- R162. -/
def Obligations.PrintPopsAndEmits : Prop :=
  (∀ rest, decode (0x0C :: rest) = .instr .print 1) ∧
  (∀ (v : Word) (s : State), s.sp ≠ 0 → s.stack[s.sp - 1]? = some v →
    exec .print s = .next { s with sp := s.sp - 1, out := s.out ++ [v], pc := s.pc + 1 }) ∧
  (∀ s : State, s.sp = 0 →
    exec .print s = .next { s with status := .faulted, cause := some .stackUnderflow, faultPc := s.pc })

/-- R164. -/
def Obligations.StopHalts : Prop :=
  (∀ rest, decode (0x0D :: rest) = .instr .stop 1) ∧
  ∀ s : State, exec .stop s = .next { s with pc := s.pc + 1, status := .halted }

/-- From every state of the spec, each of the fourteen instructions completes, no fault recorded, when the condition its
own rule names holds (R111 to R164): room on the stack, values on the stack, a divisor that is not 0. -/
def Obligations.EveryInstructionCompletesWhenReady : Prop :=
  ∀ (i : Instr) (s : State), s.Inv → s.status = .running →
    (match i with
      | .nop | .jmp _ | .stop => True
      | .push _ => s.sp < s.cfg.stackCap
      | .load r => r < s.cfg.nregs → s.sp < s.cfg.stackCap
      | .pop | .store _ | .jz _ | .jnz _ | .print => 1 ≤ s.sp
      | .add | .sub | .mul => 2 ≤ s.sp
      | .div => 2 ≤ s.sp ∧ s.stack[s.sp - 1]? ≠ some 0#32) →
    ∃ t, exec i s = .next t ∧ t.cause = none ∧ t.status = if i = .stop then .halted else .running

/-- Which execution fault each instruction raises, and exactly when (R171, R173, R174, R176). -/
def Obligations.ExecutionFaultTable : Prop :=
  ∀ (i : Instr) (s t : State), s.cause = none → exec i s = .next t →
    (t.cause = some .stackOverflow ↔
      s.cfg.stackCap ≤ s.sp ∧ ((∃ n, i = .push n) ∨ ∃ r, i = .load r ∧ r < s.cfg.nregs)) ∧
    (t.cause = some .stackUnderflow ↔
      (s.sp = 0 ∧ (i = .pop ∨ (∃ r, i = .store r) ∨ (∃ a, i = .jz a) ∨ (∃ a, i = .jnz a) ∨ i = .print)) ∨
      (s.sp < 2 ∧ (i = .add ∨ i = .sub ∨ i = .mul ∨ i = .div))) ∧
    (t.cause = some .divideByZero ↔ i = .div ∧ 2 ≤ s.sp ∧ s.stack[s.sp - 1]? = some 0#32) ∧
    t.cause ≠ some .invalidOpcode ∧ t.cause ≠ some .truncatedProgram ∧ t.cause ≠ some .programTooLarge

/-! ### Frames: what an instruction that answers a next state leaves unchanged -/

/-- No instruction changes any byte of the instruction buffer, nor a design-time parameter (R6, R31, R51, R63). -/
def Obligations.NoInstructionWritesCode : Prop :=
  ∀ (i : Instr) (s t : State), exec i s = .next t →
    t.cfg = s.cfg ∧ ∀ a, Memory.read t.imem a = Memory.read s.imem a

/-- A register is unchanged by every instruction but STORE of that register, and by that one too where its index is not
below NREGS; a register stored to with a value on the stack holds that value (R26, R123). -/
def Obligations.RegisterFrame : Prop :=
  ∀ (i : Instr) (s t : State) (j : Nat), exec i s = .next t →
    t.x.length = s.x.length ∧
    (i ≠ .store j ∨ s.cfg.nregs ≤ j ∨ s.sp = 0 → t.x[j]? = s.x[j]?) ∧
    (i = .store j → j < s.cfg.nregs → s.sp ≠ 0 → t.x[j]? = s.stack[s.sp - 1]?)

/-- Which slots of the stack each instruction may write (R24): PUSH and LOAD the slot at `sp`, the four arithmetic
instructions the slot at `sp - 2`, every other instruction none. -/
def Obligations.StackSlotFrame : Prop :=
  ∀ (i : Instr) (s t : State), exec i s = .next t →
    t.stack.length = s.stack.length ∧
    match i with
    | .push _ | .load _ => ∀ j, j ≠ s.sp → t.stack[j]? = s.stack[j]?
    | .add | .sub | .mul | .div => ∀ j, j + 2 ≠ s.sp → t.stack[j]? = s.stack[j]?
    | .nop | .pop | .store _ | .jmp _ | .jz _ | .jnz _ | .print | .stop => t.stack = s.stack

/-- How much each instruction moves the stack pointer when it completes (the table of R24), and not at all when it
faults. -/
def Obligations.StackPointerTable : Prop :=
  ∀ (i : Instr) (s t : State), s.status = .running → exec i s = .next t →
    if t.status = .faulted then t.sp = s.sp
    else
      match i with
      | .nop | .jmp _ | .stop => t.sp = s.sp
      | .push _ => t.sp = s.sp + 1
      | .load r => t.sp = if r < s.cfg.nregs then s.sp + 1 else s.sp
      | .pop | .store _ | .jz _ | .jnz _ | .print | .add | .sub | .mul | .div => t.sp + 1 = s.sp

/-- How each instruction leaves the program counter (the table of R28). -/
def Obligations.ProgramCounterTable : Prop :=
  ∀ (i : Instr) (s t : State), s.status = .running → exec i s = .next t →
    if t.status = .faulted then t.pc = s.pc ∧ t.faultPc = s.pc
    else
      match i with
      | .nop | .pop | .add | .sub | .mul | .div | .print => t.pc = s.pc + 1
      | .stop => t.pc = s.pc + 1 ∧ t.status = .halted
      | .load _ | .store _ => t.pc = s.pc + 2
      | .push _ => t.pc = s.pc + 5
      | .jmp a => t.pc = if a < s.cfg.maxInsts then a else s.pc + 3
      | .jz a => t.pc = if s.stack[s.sp - 1]? = some 0#32 ∧ a < s.cfg.maxInsts then a else s.pc + 3
      | .jnz a => t.pc = if s.stack[s.sp - 1]? ≠ some 0#32 ∧ a < s.cfg.maxInsts then a else s.pc + 3

/-- The output log is unchanged by every instruction but PRINT, and PRINT appends the popped word and nothing else
(R36, R162). -/
def Obligations.OutputFrame : Prop :=
  ∀ (i : Instr) (s t : State), exec i s = .next t →
    t.out = s.out ∨ (i = .print ∧ ∃ v, s.stack[s.sp - 1]? = some v ∧ t.out = s.out ++ [v])

/-- The run-status registers are written by a fault entry, which writes nothing else, and `status` by STOP; an instruction
that completes leaves `cause` and `fault_pc` alone (R16, R32, R33, R35, R180). -/
def Obligations.StatusFrame : Prop :=
  ∀ (i : Instr) (s t : State), exec i s = .next t →
    (∃ k, t = { s with status := .faulted, cause := some k, faultPc := s.pc }) ∨
    (t.cause = s.cause ∧ t.faultPc = s.faultPc ∧ t.status = if i = .stop then .halted else s.status)

/-! ### The step and the dispatch FSM (file 40, file 60) -/

/-- A step runs the decoded instruction: where the byte at `pc` is the opcode byte of the well-formed instruction `i`, its
operand bytes lie inside the buffer and hold its operand, the step is `exec i` and nothing else; `exec` itself moves `pc`
past the instruction (R94, R95, R96). -/
def Obligations.StepRunsTheDecodedInstruction : Prop :=
  ∀ (i : Instr) (s : State), s.status = .running → i.WellFormed = true →
    s.pc < s.cfg.maxInsts → Memory.read s.imem s.pc = i.opcodeByte →
    s.pc + 1 + i.operandWidth ≤ s.cfg.maxInsts → s.memRead (s.pc + 1) i.operandWidth = i.rawOperand →
    step s = exec i s

/-- The faults of fetching, in their order (R91, R92, R93): an opcode byte past the buffer, an opcode byte that is none of
the fourteen, operand bytes past the buffer; with none of these, a well-formed instruction with that opcode byte runs. -/
def Obligations.FetchFaultsInOrder : Prop :=
  ∀ s : State, s.status = .running →
    (s.cfg.maxInsts ≤ s.pc →
      step s = .next { s with status := .faulted, cause := some .truncatedProgram, faultPc := s.pc }) ∧
    (s.pc < s.cfg.maxInsts → (∀ i : Instr, i.opcodeByte ≠ Memory.read s.imem s.pc) →
      step s = .next { s with status := .faulted, cause := some .invalidOpcode, faultPc := s.pc }) ∧
    (∀ i : Instr, s.pc < s.cfg.maxInsts → i.opcodeByte = Memory.read s.imem s.pc →
      s.cfg.maxInsts < s.pc + 1 + i.operandWidth →
      step s = .next { s with status := .faulted, cause := some .truncatedProgram, faultPc := s.pc }) ∧
    (∀ i : Instr, i.opcodeByte = Memory.read s.imem s.pc → s.pc + 1 + i.operandWidth ≤ s.cfg.maxInsts →
      ∃ j : Instr, j.WellFormed = true ∧ j.opcodeByte = i.opcodeByte ∧
        j.rawOperand = s.memRead (s.pc + 1) j.operandWidth ∧ step s = exec j s)

/-- What fetching reads depends on `pc`, on MAX_INSTS and on at most five bytes of the buffer, and on nothing else of the
state (R97). -/
def Obligations.FetchIsLocal : Prop :=
  ∀ s t : State, t.pc = s.pc → t.cfg.maxInsts = s.cfg.maxInsts →
    (∀ k, k < 5 → s.pc + k < s.cfg.maxInsts → Memory.read t.imem (s.pc + k) = Memory.read s.imem (s.pc + k)) →
    fetch t = fetch s

/-- A step that ends in a fault changes `status`, `cause` and `fault_pc` and nothing else, and `fault_pc` is the address of
the faulting instruction's opcode byte (R180, R181, R182). -/
def Obligations.FaultsArePrecise : Prop :=
  ∀ s t : State, s.status = .running → step s = .next t → t.status = .faulted →
    ∃ k, k ≠ .programTooLarge ∧ t = { s with status := .faulted, cause := some k, faultPc := s.pc }

/-- A Running core halts in a step exactly when it fetches STOP there (R32, R98). -/
def Obligations.OnlyStopHalts : Prop :=
  ∀ s t : State, s.status = .running → step s = .next t → (t.status = .halted ↔ fetch s = .ok .stop)

/-- Halted and Faulted are absorbing: no number of steps changes anything (R99, R183). -/
def Obligations.EndedRunsNeverChange : Prop :=
  ∀ (n : Nat) (s : State), s.status ≠ .running → runFor n s = .next s

/-! ### Invariants and whole-machine rules -/

/-- R39 with the sizes of R22, R25, R31: the invariant holds after reset, for every configuration that R8 allows. -/
def Obligations.InvariantHoldsAtReset : Prop :=
  State.reset.Inv ∧ ∀ c : Config, c.wf → (State.resetOf c).Inv

/-- Every program, of any bytes and any length, in either loader mode, boots into a state of the spec (R39, R41, R205). -/
def Obligations.BootGivesAStateOfTheSpec : Prop :=
  ∀ (c : Config) (bytes : List Byte), c.wf → (boot c bytes).Inv

/-- Every step keeps the invariant (R39): `sp` and `pc` stay in range, the arrays keep their sizes, the instruction buffer
stays canonical, `cause` is set exactly in Faulted. -/
def Obligations.StepKeepsTheInvariant : Prop :=
  ∀ s t : State, s.Inv → step s = .next t → t.Inv

/-- From a state of the spec the machine never stops outside the dispatch FSM: every run of any length answers a state of
the spec, never a fault or a refusal of the model's own. -/
def Obligations.RunsNeverLeaveTheSpec : Prop :=
  ∀ (n : Nat) (s : State), s.Inv → ∃ t, runFor n s = .next t ∧ t.Inv

/-- Along any run, the code, the parameters and every register that no operand can name stay as they are, and the output
log only grows (R8, R36, R51, R63). -/
def Obligations.RunsKeepCodeAndOnlyExtendOutput : Prop :=
  ∀ (n : Nat) (s t : State), runFor n s = .next t →
    t.cfg = s.cfg ∧ t.imem = s.imem ∧ (∀ j, 256 ≤ j → t.x[j]? = s.x[j]?) ∧ ∃ new, t.out = s.out ++ new

/-- A register keeps its word along any run in which no step executes a STORE of it: a value stored to `x[r]` is the value
every later LOAD `r` pushes until the next STORE `r` (R60). -/
def Obligations.StoredRegisterStaysUntilNextStore : Prop :=
  ∀ (n r : Nat) (s t : State), runFor n s = .next t →
    (∀ (k : Nat) (u : State), k < n → runFor k s = .next u → u.status = .running → fetch u ≠ .ok (.store r)) →
    t.x[r]? = s.x[r]?

/-- The content of a stack slot that is not live is not observable (R24): two states that differ in dead slots only run
alike, for any number of steps, and still differ in dead slots only. -/
def Obligations.DeadSlotsAreUnobservable : Prop :=
  ∀ (n : Nat) (s t s' : State), s.SameLive t → runFor n s = .next s' →
    ∃ t', runFor n t = .next t' ∧ s'.SameLive t'

/-- A Running step that does not fault either takes a jump, to the target it took, or moves `pc` forward by the length of
the instruction it fetched, which is at least one (R28, R131, R136). -/
def Obligations.OnlyTakenJumpsDoNotAdvance : Prop :=
  ∀ s t : State, s.status = .running → step s = .next t → t.status ≠ .faulted →
    (∃ p, s.takenTarget = some p ∧ t.pc = p ∧ p < s.cfg.maxInsts) ∨
    (s.takenTarget = none ∧ ∃ i, fetch s = .ok i ∧ t.pc = s.pc + i.length ∧ 1 ≤ i.length)

/-- A run in which every taken jump goes forward ends, after at most MAX_INSTS completed steps: one more step, a fault, is
all that can follow them. This is R136, which the spec marks as its own inference from R131 and R28. -/
def Obligations.ForwardOnlyRunsEnd : Prop :=
  ∀ s : State, s.Inv →
    (∀ (n p : Nat) (u : State), runFor n s = .next u → u.status = .running → u.takenTarget = some p → u.pc < p) →
    ∃ t, runFor (s.cfg.maxInsts + 1) s = .next t ∧ t.status ≠ .running

/-- Execution that meets nothing but zero bytes from `pc` on runs them as NOPs to the end of the buffer and faults there
with TruncatedProgram at MAX_INSTS, nothing else changed (R58, R102). -/
def Obligations.ZeroPaddingRunsToTheEnd : Prop :=
  ∀ s : State, s.Inv → s.status = .running →
    (∀ a, s.pc ≤ a → a < s.cfg.maxInsts → Memory.read s.imem a = 0#8) →
    runFor (s.cfg.maxInsts - s.pc + 1) s =
      .next { s with pc := s.cfg.maxInsts, status := .faulted, cause := some .truncatedProgram,
                     faultPc := s.cfg.maxInsts }

/-! ### Laws (R113, R124, R135, R7) -/

/-- PUSH followed by POP restores the stack: the law R113, which the spec marks as its own inference from R111 and R112. -/
def Obligations.PushThenPopRestores : Prop :=
  ∀ (n : Word) (s : State), s.Inv → s.sp < s.cfg.stackCap →
    ∃ t, execSeq [.push n, .pop] s = .next t ∧ t.sp = s.sp ∧ (∀ j, j < s.sp → t.stack[j]? = s.stack[j]?) ∧
      t.x = s.x ∧ t.pc = s.pc + 6

/-- STORE then LOAD of one register leaves the stack as it was and sets the register to the top of stack; LOAD then STORE
changes nothing but `pc` and a slot that is not live (the law R124, from R121 and R123). -/
def Obligations.StoreAndLoadAreInverse : Prop :=
  (∀ (r : Nat) (v : Word) (s : State), s.Inv → r < s.cfg.nregs → 1 ≤ s.sp → s.stack[s.sp - 1]? = some v →
    execSeq [.store r, .load r] s = .next { s with x := s.x.set r v, pc := s.pc + 4 }) ∧
  (∀ (r : Nat) (s : State), s.Inv → r < s.cfg.nregs → s.sp < s.cfg.stackCap →
    ∃ t, execSeq [.load r, .store r] s = .next t ∧ State.SameLive { s with pc := s.pc + 4 } t)

/-- JZ and JNZ are complementary: from one state with a value on the stack and a valid target, one goes to the target and
the other past itself, and they leave the rest of the state alike: the law R135, which the spec marks as its own
inference from R133 and R134. -/
def Obligations.JzAndJnzAreComplementary : Prop :=
  ∀ (a : Nat) (s : State), s.Inv → 1 ≤ s.sp → a < s.cfg.maxInsts →
    ∃ t u, exec (.jz a) s = .next t ∧ exec (.jnz a) s = .next u ∧
      ((t.pc = a ∧ u.pc = s.pc + 3) ∨ (t.pc = s.pc + 3 ∧ u.pc = a)) ∧ u = { t with pc := u.pc }

/-- The stack holds exactly STACK_CAP words: from an empty stack, that many PUSHes in a row complete and leave the words
in order, and one more faults with StackOverflow (R7, R111, R173). -/
def Obligations.StackHoldsExactlyStackCapWords : Prop :=
  ∀ (ns : List Word) (n : Word) (s : State), s.Inv → s.sp = 0 → ns.length = s.cfg.stackCap →
    ∃ t, execSeq (ns.map .push) s = .next t ∧ t.sp = s.cfg.stackCap ∧ t.stack.take t.sp = ns ∧
      t.cause = s.cause ∧
      exec (.push n) t = .next { t with status := .faulted, cause := some .stackOverflow, faultPc := t.pc }

/-! ### The ALU (44_arithmetic.md) -/

/-- ADD, SUB and MUL give the low 32 bits of the true result, the same whether the operands are read as signed or as
unsigned, and give the true result itself wherever it is an `Int32` (R141). -/
def Obligations.WrapKeepsTheLowBits : Prop :=
  ∀ a b : Word,
    aluAdd a b = BitVec.ofNat 32 (a.toNat + b.toNat) ∧
    aluSub a b = BitVec.ofInt 32 ((a.toNat : Int) - b.toNat) ∧
    aluMul a b = BitVec.ofNat 32 (a.toNat * b.toNat) ∧
    (∀ n : Int, -2 ^ 31 ≤ n → n < 2 ^ 31 →
      (a.toInt + b.toInt = n → (aluAdd a b).toInt = n) ∧
      (a.toInt - b.toInt = n → (aluSub a b).toInt = n) ∧
      (a.toInt * b.toInt = n → (aluMul a b).toInt = n))

/-- The quotient of R147: rounded toward zero by the formula with signs and magnitudes, exact in every case but
-2^31 / -1, which gives -2^31. -/
def Obligations.QuotientRoundsTowardZero : Prop :=
  ∀ a b : Word, b ≠ 0#32 →
    aluTdiv a b = BitVec.ofInt 32 (a.toInt.sign * b.toInt.sign * (a.toInt.natAbs / b.toInt.natAbs : Nat)) ∧
    (¬(a.toInt = -2 ^ 31 ∧ b.toInt = -1) →
      (aluTdiv a b).toInt = a.toInt.sign * b.toInt.sign * (a.toInt.natAbs / b.toInt.natAbs : Nat)) ∧
    (a.toInt = -2 ^ 31 → b.toInt = -1 → (aluTdiv a b).toInt = -2 ^ 31)

/-! ### Reset, load and the host's view (file 70, R23, R27, R34, R163, R171) -/

/-- The state at the start of a run (the table of R41, with R204 and, for a program that is too long, R205). -/
def Obligations.BootLeavesTheResetTable : Prop :=
  ∀ (c : Config) (bytes : List Byte),
    (bytes.length ≤ c.maxInsts →
      (boot c bytes).cfg = c ∧
      (∀ i, i < c.stackSize → (boot c bytes).stack[i]? = some 0#32) ∧ (boot c bytes).sp = 0 ∧
      (∀ i, i < c.nregs → (boot c bytes).x[i]? = some 0#32) ∧
      (∀ a b, bytes[a]? = some b → Memory.read (boot c bytes).imem a = b) ∧
      (∀ a, bytes.length ≤ a → Memory.read (boot c bytes).imem a = 0#8) ∧
      (boot c bytes).pc = 0 ∧ (boot c bytes).status = .running ∧ (boot c bytes).cause = none ∧
      (boot c bytes).faultPc = 0 ∧ (boot c bytes).out = []) ∧
    (c.maxInsts < bytes.length → c.loadMode = .strict →
      boot c bytes = { State.resetOf c with status := .faulted, cause := some .programTooLarge, faultPc := 0 } ∧
      ∀ a, Memory.read (boot c bytes).imem a = 0#8)

/-- The permissive loader, which the spec describes and does not adopt, runs the truncated image with no fault; the two
modes differ only on programs longer than the buffer (R206). The model carries both: log 5. -/
def Obligations.LoaderModesDifferOnlyOnLongPrograms : Prop :=
  ∀ (c : Config) (bytes : List Byte),
    (c.loadMode = .permissive → boot c bytes = boot c (bytes.take c.maxInsts) ∧ (boot c bytes).status = .running) ∧
    (bytes.length ≤ c.maxInsts → ∀ m : LoadMode,
      boot { c with loadMode := m } bytes = { boot c bytes with cfg := { c with loadMode := m } })

/-- The host's outcome is Completed exactly in Halted, `Faulted(cause, fault_pc)` in Faulted, and none while the core runs;
once a run has ended, its outcome and output do not depend on how much longer it is watched (R99, R208). -/
def Obligations.RunOutcomeIsFinal : Prop :=
  (∀ s : State, s.Inv →
    (outcome s = some .completed ↔ s.status = .halted) ∧
    (∀ k p, outcome s = some (.faulted k p) ↔ s.status = .faulted ∧ s.cause = some k ∧ s.faultPc = p) ∧
    (outcome s = none ↔ s.status = .running)) ∧
  (∀ (n k : Nat) (c : Config) (bytes : List Byte) (r : RunOutcome × List Word),
    hostRun n c bytes = some r → hostRun (n + k) c bytes = some r)

/-- A printed line (R163): a minus sign exactly for a negative value, then the decimal digits of the magnitude, without
leading zeros, then one line feed; 2 to 12 bytes in all; the text of the log is its lines in order. -/
def Obligations.RenderedLineIsDecimal : Prop :=
  ∀ v : Word, ∃ ds : List Byte,
    renderLine v = (if v.toInt < 0 then [0x2D] else []) ++ ds ++ [0x0A] ∧
    (∀ d ∈ ds, 0x30 ≤ d.toNat ∧ d.toNat ≤ 0x39) ∧ ds ≠ [] ∧ (ds.head? = some 0x30 → ds = [0x30]) ∧
    digitsValue ds = v.toInt.natAbs ∧ 2 ≤ (renderLine v).length ∧ (renderLine v).length ≤ 12 ∧
    renderOut [] = [] ∧ ∀ out, renderOut (out ++ [v]) = renderOut out ++ renderLine v

/-- The numeric codes of `status` and `cause` (R34, R171): as the tables give them, no two alike, 3 never a `status`. -/
def Obligations.StatusAndCauseCodes : Prop :=
  (statusCode .running = 0 ∧ statusCode .halted = 1 ∧ statusCode .faulted = 2) ∧
  (∀ s, statusCode s ≠ 3) ∧
  (causeCode none = 0 ∧ causeCode (some .invalidOpcode) = 1 ∧ causeCode (some .stackOverflow) = 2 ∧
    causeCode (some .stackUnderflow) = 3 ∧ causeCode (some .truncatedProgram) = 4 ∧
    causeCode (some .divideByZero) = 5 ∧ causeCode (some .programTooLarge) = 6)

/-- The hardware widths of R23 and R27 hold every value that a state of the spec has, and no smaller width does; with
MAX_INSTS = 65536 the program counter has 17 bits. -/
def Obligations.RegisterWidthsAreLeast : Prop :=
  (∀ s : State, s.Inv →
    s.sp < 2 ^ s.cfg.spWidth ∧ s.pc < 2 ^ s.cfg.pcWidth ∧ s.faultPc < 2 ^ s.cfg.pcWidth) ∧
  (∀ (c : Config) (w : Nat), 1 ≤ w →
    (c.stackCap < 2 ^ w → c.spWidth ≤ w) ∧ (c.maxInsts < 2 ^ w → c.pcWidth ≤ w)) ∧
  (∀ c : Config, c.maxInsts = 65536 → c.pcWidth = 17)

/-- An instruction word laid where the next fetch reads is the next instruction executed, in a state of the spec with room
for the longest instruction: the model's own way of placing one (log 8), resting on R71 and R96. -/
def Obligations.PlacedWordRunsNext : Prop :=
  ∀ (nbits w : Nat) (i : Instr) (s : State), s.Inv → s.pc + 5 ≤ s.cfg.maxInsts →
    decodeTableWord nbits w = some i →
    step (s.withFetchWord nbits w) = exec i (s.withFetchWord nbits w)
end

