-- ==== Sys2Proof/Laws/Decode.lean ====
section
/-!
SUPPORT. The byte order of operands, both ways (00_scope.md R14, 20_memory.md R52), and what the operand step of the decoder
can answer (40_fetch_decode_dispatch.md R93, R94).
-/

namespace Sys2Proof

@[simp] theorem leBytes_length (n : Nat) : ∀ v : Nat, (leBytes n v).length = n := by
  induction n with
  | zero => exact fun _ => rfl
  | succ n ih => intro v; simp [leBytes, ih]

/-- The value of `n` little-endian bytes of `v` is `v` modulo `2^(8n)`. -/
theorem leNat_leBytes (n : Nat) : ∀ v : Nat, leNat (leBytes n v) = v % 256 ^ n := by
  induction n with
  | zero => intro v; simp [leBytes, leNat, Nat.mod_one]
  | succ n ih =>
    intro v
    rw [leBytes, leNat, ih, BitVec.toNat_ofNat, show (256 : Nat) ^ (n + 1) = 256 * 256 ^ n from Nat.pow_succ',
      Nat.mod_mul]

/-- A string of bytes is the little-endian bytes of its value. -/
theorem leBytes_leNat (bs : List Byte) : leBytes bs.length (leNat bs) = bs := by
  induction bs with
  | nil => rfl
  | cons b rest ih =>
    have hb := b.isLt
    have e1 : BitVec.ofNat 8 (leNat (b :: rest)) = b := by
      apply BitVec.eq_of_toNat_eq
      rw [BitVec.toNat_ofNat, leNat]; omega
    have e2 : leNat (b :: rest) / 256 = leNat rest := by rw [leNat]; omega
    rw [List.length_cons, leBytes, e1, e2, ih]

/-- The value of `n` bytes is below `256^n`. -/
theorem leNat_lt (bs : List Byte) : leNat bs < 256 ^ bs.length := by
  induction bs with
  | nil => simp [leNat]
  | cons b rest ih =>
    have hb := b.isLt
    rw [leNat, List.length_cons, Nat.pow_succ']; omega

/-- The value of the first `n` bytes, where there are that many. -/
theorem leNat_take_lt {n : Nat} {bs : List Byte} (h : n ≤ bs.length) : leNat (bs.take n) < 256 ^ n := by
  have := leNat_lt (bs.take n)
  rwa [List.length_take, Nat.min_eq_left h] at this

/-- The operand step answers an instruction exactly when its operand bytes are all there. -/
theorem decodeOperand_instr {n : Nat} {rest : List Byte} {make : Nat → Instr} {i : Instr} {len : Nat} :
    decodeOperand n rest make = .instr i len ↔
      n ≤ rest.length ∧ i = make (leNat (rest.take n)) ∧ len = 1 + n := by
  unfold decodeOperand
  split
  · simp; omega
  · simp only [Decoded.instr.injEq]
    exact ⟨fun h => ⟨by omega, h.1.symm, h.2.symm⟩, fun h => ⟨h.2.1.symm, h.2.2.symm⟩⟩

/-- The operand step never finds an invalid opcode. -/
theorem decodeOperand_ne_invalid (n : Nat) (rest : List Byte) (make : Nat → Instr) (op : Byte) :
    decodeOperand n rest make ≠ .invalid op := by
  unfold decodeOperand
  split <;> simp

/-- The operand step is truncated exactly when operand bytes are missing. -/
theorem decodeOperand_truncated {n : Nat} {rest : List Byte} {make : Nat → Instr} :
    decodeOperand n rest make = .truncated ↔ rest.length < n := by
  unfold decodeOperand
  split <;> simp_all

@[simp] theorem decode_nil : decode [] = .truncated := rfl

theorem decode_cons (op : Byte) (rest : List Byte) : decode (op :: rest) = decodeOpcode op rest := rfl

/-- An opcode byte that is the number of a table row. -/
theorem eq_ofNat_of_toNat {op : Byte} {n : Nat} (h : op.toNat = n) : op = BitVec.ofNat 8 n := by
  apply BitVec.eq_of_toNat_eq
  rw [h, BitVec.toNat_ofNat, Nat.mod_eq_of_lt (h ▸ op.isLt)]

/-- What an instruction that the decoder reads has to do with the bytes it is read from. -/
theorem decodeOpcode_instr {op : Byte} {rest : List Byte} {i : Instr} {n : Nat}
    (h : decodeOpcode op rest = .instr i n) :
    op = i.opcodeByte ∧ n = i.length ∧ i.operandWidth ≤ rest.length ∧
      i.rawOperand = leNat (rest.take i.operandWidth) ∧ i.WellFormed = true := by
  unfold decodeOpcode at h
  split at h
  case h_15 => cases h
  all_goals
    have hop := eq_ofNat_of_toNat ‹op.toNat = _›
    first
    | obtain ⟨rfl, rfl⟩ := Decoded.instr.inj h
      exact ⟨hop, rfl, Nat.zero_le _, rfl, rfl⟩
    | obtain ⟨hl, rfl, rfl⟩ := decodeOperand_instr.1 h
      have hlt := leNat_take_lt hl
      refine ⟨hop, rfl, hl, ?_, ?_⟩
      · simp only [Instr.rawOperand, Instr.operandWidth, BitVec.toNat_ofNat]
        try exact Nat.mod_eq_of_lt hlt
      · first | rfl | simpa [Instr.WellFormed] using hlt

/-- Which opcode bytes are invalid. -/
theorem decodeOpcode_invalid {op op' : Byte} {rest : List Byte} :
    decodeOpcode op rest = .invalid op' ↔ op' = op ∧ 14 ≤ op.toNat := by
  unfold decodeOpcode
  split
  case h_15 =>
    simp only [Decoded.invalid.injEq]
    simp only [imp_false] at *
    exact ⟨fun h => ⟨h.symm, by omega⟩, fun h => h.1.symm⟩
  all_goals
    have hop : op.toNat = _ := ‹_›
    simp [decodeOperand_ne_invalid, hop]

/-- The operand width as a function of the opcode byte alone (R70, R72). -/
theorem operandWidth_eq_of_opcodeByte (i : Instr) :
    i.operandWidth = if i.opcodeByte = 0x01 then 4
      else if i.opcodeByte = 0x03 ∨ i.opcodeByte = 0x04 then 1
      else if i.opcodeByte = 0x05 ∨ i.opcodeByte = 0x06 ∨ i.opcodeByte = 0x07 then 2 else 0 := by
  cases i <;> rfl

/-- Two instructions with one opcode byte have one operand width. -/
theorem operandWidth_congr {i j : Instr} (h : i.opcodeByte = j.opcodeByte) : i.operandWidth = j.operandWidth := by
  rw [operandWidth_eq_of_opcodeByte, operandWidth_eq_of_opcodeByte, h]

/-- An operand is at most four bytes (R70). -/
theorem operandWidth_le (i : Instr) : i.operandWidth ≤ 4 := by
  cases i <;> simp [Instr.operandWidth]

/-- No instruction has an opcode byte above the table's (R76). -/
theorem opcodeByte_lt (i : Instr) : i.opcodeByte.toNat < 14 := by
  cases i <;> simp [Instr.opcodeByte]

/-- A truncated instruction has a valid opcode byte and lacks operand bytes (R93). -/
theorem decodeOpcode_truncated {op : Byte} {rest : List Byte} (h : decodeOpcode op rest = .truncated) :
    ∃ i : Instr, op = i.opcodeByte ∧ rest.length < i.operandWidth := by
  unfold decodeOpcode at h
  split at h
  case h_2 => exact ⟨.push 0, eq_ofNat_of_toNat ‹_›, decodeOperand_truncated.1 h⟩
  case h_4 => exact ⟨.load 0, eq_ofNat_of_toNat ‹_›, decodeOperand_truncated.1 h⟩
  case h_5 => exact ⟨.store 0, eq_ofNat_of_toNat ‹_›, decodeOperand_truncated.1 h⟩
  case h_6 => exact ⟨.jmp 0, eq_ofNat_of_toNat ‹_›, decodeOperand_truncated.1 h⟩
  case h_7 => exact ⟨.jz 0, eq_ofNat_of_toNat ‹_›, decodeOperand_truncated.1 h⟩
  case h_8 => exact ⟨.jnz 0, eq_ofNat_of_toNat ‹_›, decodeOperand_truncated.1 h⟩
  all_goals cases h

end Sys2Proof
end

