-- ==== Sys2Proof/Laws/State.lean ====
section
/-!
SUPPORT. What each update of the state does to each field: one lemma per field per update, so that no later proof unfolds
a record update.
-/

namespace Sys2Proof.Machine

/-! ### `State.faultEntry` (R16, R180) -/

@[simp] theorem State.faultEntry_cfg (k : FaultKind) (s : State) :
    (s.faultEntry k).cfg = s.cfg := rfl
@[simp] theorem State.faultEntry_stack (k : FaultKind) (s : State) :
    (s.faultEntry k).stack = s.stack := rfl
@[simp] theorem State.faultEntry_sp (k : FaultKind) (s : State) :
    (s.faultEntry k).sp = s.sp := rfl
@[simp] theorem State.faultEntry_x (k : FaultKind) (s : State) :
    (s.faultEntry k).x = s.x := rfl
@[simp] theorem State.faultEntry_imem (k : FaultKind) (s : State) :
    (s.faultEntry k).imem = s.imem := rfl
@[simp] theorem State.faultEntry_pc (k : FaultKind) (s : State) :
    (s.faultEntry k).pc = s.pc := rfl
@[simp] theorem State.faultEntry_status (k : FaultKind) (s : State) :
    (s.faultEntry k).status = .faulted := rfl
@[simp] theorem State.faultEntry_cause (k : FaultKind) (s : State) :
    (s.faultEntry k).cause = some k := rfl
@[simp] theorem State.faultEntry_faultPc (k : FaultKind) (s : State) :
    (s.faultEntry k).faultPc = s.pc := rfl
@[simp] theorem State.faultEntry_out (k : FaultKind) (s : State) :
    (s.faultEntry k).out = s.out := rfl

/-! ### `State.advance` (R95) -/

@[simp] theorem State.advance_cfg (n : Nat) (s : State) :
    (s.advance n).cfg = s.cfg := rfl
@[simp] theorem State.advance_stack (n : Nat) (s : State) :
    (s.advance n).stack = s.stack := rfl
@[simp] theorem State.advance_sp (n : Nat) (s : State) :
    (s.advance n).sp = s.sp := rfl
@[simp] theorem State.advance_x (n : Nat) (s : State) :
    (s.advance n).x = s.x := rfl
@[simp] theorem State.advance_imem (n : Nat) (s : State) :
    (s.advance n).imem = s.imem := rfl
@[simp] theorem State.advance_pc (n : Nat) (s : State) :
    (s.advance n).pc = s.pc + n := rfl
@[simp] theorem State.advance_status (n : Nat) (s : State) :
    (s.advance n).status = s.status := rfl
@[simp] theorem State.advance_cause (n : Nat) (s : State) :
    (s.advance n).cause = s.cause := rfl
@[simp] theorem State.advance_faultPc (n : Nat) (s : State) :
    (s.advance n).faultPc = s.faultPc := rfl
@[simp] theorem State.advance_out (n : Nat) (s : State) :
    (s.advance n).out = s.out := rfl

/-! ### `State.jumpTo` (R131) -/

@[simp] theorem State.jumpTo_cfg (t : Nat) (s : State) :
    (s.jumpTo t).cfg = s.cfg := rfl
@[simp] theorem State.jumpTo_stack (t : Nat) (s : State) :
    (s.jumpTo t).stack = s.stack := rfl
@[simp] theorem State.jumpTo_sp (t : Nat) (s : State) :
    (s.jumpTo t).sp = s.sp := rfl
@[simp] theorem State.jumpTo_x (t : Nat) (s : State) :
    (s.jumpTo t).x = s.x := rfl
@[simp] theorem State.jumpTo_imem (t : Nat) (s : State) :
    (s.jumpTo t).imem = s.imem := rfl
@[simp] theorem State.jumpTo_pc (t : Nat) (s : State) :
    (s.jumpTo t).pc = if t < s.cfg.maxInsts then t else s.pc + 3 := rfl
@[simp] theorem State.jumpTo_status (t : Nat) (s : State) :
    (s.jumpTo t).status = s.status := rfl
@[simp] theorem State.jumpTo_cause (t : Nat) (s : State) :
    (s.jumpTo t).cause = s.cause := rfl
@[simp] theorem State.jumpTo_faultPc (t : Nat) (s : State) :
    (s.jumpTo t).faultPc = s.faultPc := rfl
@[simp] theorem State.jumpTo_out (t : Nat) (s : State) :
    (s.jumpTo t).out = s.out := rfl

/-! ### `State.pushed` (R15) -/

@[simp] theorem State.pushed_cfg (v : Word) (s : State) :
    (s.pushed v).cfg = s.cfg := rfl
@[simp] theorem State.pushed_stack (v : Word) (s : State) :
    (s.pushed v).stack = s.stack.set s.sp v := rfl
@[simp] theorem State.pushed_sp (v : Word) (s : State) :
    (s.pushed v).sp = s.sp + 1 := rfl
@[simp] theorem State.pushed_x (v : Word) (s : State) :
    (s.pushed v).x = s.x := rfl
@[simp] theorem State.pushed_imem (v : Word) (s : State) :
    (s.pushed v).imem = s.imem := rfl
@[simp] theorem State.pushed_pc (v : Word) (s : State) :
    (s.pushed v).pc = s.pc := rfl
@[simp] theorem State.pushed_status (v : Word) (s : State) :
    (s.pushed v).status = s.status := rfl
@[simp] theorem State.pushed_cause (v : Word) (s : State) :
    (s.pushed v).cause = s.cause := rfl
@[simp] theorem State.pushed_faultPc (v : Word) (s : State) :
    (s.pushed v).faultPc = s.faultPc := rfl
@[simp] theorem State.pushed_out (v : Word) (s : State) :
    (s.pushed v).out = s.out := rfl

/-! ### `State.dropped` (R15) -/

@[simp] theorem State.dropped_cfg (s : State) :
    (s.dropped).cfg = s.cfg := rfl
@[simp] theorem State.dropped_stack (s : State) :
    (s.dropped).stack = s.stack := rfl
@[simp] theorem State.dropped_sp (s : State) :
    (s.dropped).sp = s.sp - 1 := rfl
@[simp] theorem State.dropped_x (s : State) :
    (s.dropped).x = s.x := rfl
@[simp] theorem State.dropped_imem (s : State) :
    (s.dropped).imem = s.imem := rfl
@[simp] theorem State.dropped_pc (s : State) :
    (s.dropped).pc = s.pc := rfl
@[simp] theorem State.dropped_status (s : State) :
    (s.dropped).status = s.status := rfl
@[simp] theorem State.dropped_cause (s : State) :
    (s.dropped).cause = s.cause := rfl
@[simp] theorem State.dropped_faultPc (s : State) :
    (s.dropped).faultPc = s.faultPc := rfl
@[simp] theorem State.dropped_out (s : State) :
    (s.dropped).out = s.out := rfl

/-! ### `State.replaceTwo` (R140) -/

@[simp] theorem State.replaceTwo_cfg (v : Word) (s : State) :
    (s.replaceTwo v).cfg = s.cfg := rfl
@[simp] theorem State.replaceTwo_stack (v : Word) (s : State) :
    (s.replaceTwo v).stack = s.stack.set (s.sp - 2) v := rfl
@[simp] theorem State.replaceTwo_sp (v : Word) (s : State) :
    (s.replaceTwo v).sp = s.sp - 1 := rfl
@[simp] theorem State.replaceTwo_x (v : Word) (s : State) :
    (s.replaceTwo v).x = s.x := rfl
@[simp] theorem State.replaceTwo_imem (v : Word) (s : State) :
    (s.replaceTwo v).imem = s.imem := rfl
@[simp] theorem State.replaceTwo_pc (v : Word) (s : State) :
    (s.replaceTwo v).pc = s.pc := rfl
@[simp] theorem State.replaceTwo_status (v : Word) (s : State) :
    (s.replaceTwo v).status = s.status := rfl
@[simp] theorem State.replaceTwo_cause (v : Word) (s : State) :
    (s.replaceTwo v).cause = s.cause := rfl
@[simp] theorem State.replaceTwo_faultPc (v : Word) (s : State) :
    (s.replaceTwo v).faultPc = s.faultPc := rfl
@[simp] theorem State.replaceTwo_out (v : Word) (s : State) :
    (s.replaceTwo v).out = s.out := rfl

/-! ### `State.result` (R142) -/

@[simp] theorem State.result_cfg (v : Word) (s : State) :
    (s.result v).cfg = s.cfg := rfl
@[simp] theorem State.result_stack (v : Word) (s : State) :
    (s.result v).stack = s.stack.set (s.sp - 2) v := rfl
@[simp] theorem State.result_sp (v : Word) (s : State) :
    (s.result v).sp = s.sp - 1 := rfl
@[simp] theorem State.result_x (v : Word) (s : State) :
    (s.result v).x = s.x := rfl
@[simp] theorem State.result_imem (v : Word) (s : State) :
    (s.result v).imem = s.imem := rfl
@[simp] theorem State.result_pc (v : Word) (s : State) :
    (s.result v).pc = s.pc + 1 := rfl
@[simp] theorem State.result_status (v : Word) (s : State) :
    (s.result v).status = s.status := rfl
@[simp] theorem State.result_cause (v : Word) (s : State) :
    (s.result v).cause = s.cause := rfl
@[simp] theorem State.result_faultPc (v : Word) (s : State) :
    (s.result v).faultPc = s.faultPc := rfl
@[simp] theorem State.result_out (v : Word) (s : State) :
    (s.result v).out = s.out := rfl

/-! ### `State.setReg` (R13) -/

@[simp] theorem State.setReg_cfg (r : Nat) (v : Word) (s : State) :
    (s.setReg r v).cfg = s.cfg := rfl
@[simp] theorem State.setReg_stack (r : Nat) (v : Word) (s : State) :
    (s.setReg r v).stack = s.stack := rfl
@[simp] theorem State.setReg_sp (r : Nat) (v : Word) (s : State) :
    (s.setReg r v).sp = s.sp := rfl
@[simp] theorem State.setReg_x (r : Nat) (v : Word) (s : State) :
    (s.setReg r v).x = s.x.set r v := rfl
@[simp] theorem State.setReg_imem (r : Nat) (v : Word) (s : State) :
    (s.setReg r v).imem = s.imem := rfl
@[simp] theorem State.setReg_pc (r : Nat) (v : Word) (s : State) :
    (s.setReg r v).pc = s.pc := rfl
@[simp] theorem State.setReg_status (r : Nat) (v : Word) (s : State) :
    (s.setReg r v).status = s.status := rfl
@[simp] theorem State.setReg_cause (r : Nat) (v : Word) (s : State) :
    (s.setReg r v).cause = s.cause := rfl
@[simp] theorem State.setReg_faultPc (r : Nat) (v : Word) (s : State) :
    (s.setReg r v).faultPc = s.faultPc := rfl
@[simp] theorem State.setReg_out (r : Nat) (v : Word) (s : State) :
    (s.setReg r v).out = s.out := rfl

/-! ### `State.emit` (R17) -/

@[simp] theorem State.emit_cfg (v : Word) (s : State) :
    (s.emit v).cfg = s.cfg := rfl
@[simp] theorem State.emit_stack (v : Word) (s : State) :
    (s.emit v).stack = s.stack := rfl
@[simp] theorem State.emit_sp (v : Word) (s : State) :
    (s.emit v).sp = s.sp := rfl
@[simp] theorem State.emit_x (v : Word) (s : State) :
    (s.emit v).x = s.x := rfl
@[simp] theorem State.emit_imem (v : Word) (s : State) :
    (s.emit v).imem = s.imem := rfl
@[simp] theorem State.emit_pc (v : Word) (s : State) :
    (s.emit v).pc = s.pc := rfl
@[simp] theorem State.emit_status (v : Word) (s : State) :
    (s.emit v).status = s.status := rfl
@[simp] theorem State.emit_cause (v : Word) (s : State) :
    (s.emit v).cause = s.cause := rfl
@[simp] theorem State.emit_faultPc (v : Word) (s : State) :
    (s.emit v).faultPc = s.faultPc := rfl
@[simp] theorem State.emit_out (v : Word) (s : State) :
    (s.emit v).out = s.out ++ [v] := rfl

/-! ### `State.halt` (R164) -/

@[simp] theorem State.halt_cfg (s : State) :
    (s.halt).cfg = s.cfg := rfl
@[simp] theorem State.halt_stack (s : State) :
    (s.halt).stack = s.stack := rfl
@[simp] theorem State.halt_sp (s : State) :
    (s.halt).sp = s.sp := rfl
@[simp] theorem State.halt_x (s : State) :
    (s.halt).x = s.x := rfl
@[simp] theorem State.halt_imem (s : State) :
    (s.halt).imem = s.imem := rfl
@[simp] theorem State.halt_pc (s : State) :
    (s.halt).pc = s.pc := rfl
@[simp] theorem State.halt_status (s : State) :
    (s.halt).status = .halted := rfl
@[simp] theorem State.halt_cause (s : State) :
    (s.halt).cause = s.cause := rfl
@[simp] theorem State.halt_faultPc (s : State) :
    (s.halt).faultPc = s.faultPc := rfl
@[simp] theorem State.halt_out (s : State) :
    (s.halt).out = s.out := rfl

/-! ### `State.place` (R94) -/

@[simp] theorem State.place_cfg (bs : List Byte) (s : State) :
    (s.place bs).cfg = s.cfg := rfl
@[simp] theorem State.place_stack (bs : List Byte) (s : State) :
    (s.place bs).stack = s.stack := rfl
@[simp] theorem State.place_sp (bs : List Byte) (s : State) :
    (s.place bs).sp = s.sp := rfl
@[simp] theorem State.place_x (bs : List Byte) (s : State) :
    (s.place bs).x = s.x := rfl
@[simp] theorem State.place_imem (bs : List Byte) (s : State) :
    (s.place bs).imem = Memory.writeBytes s.imem s.pc (bs.take (s.cfg.maxInsts - s.pc)) := rfl
@[simp] theorem State.place_pc (bs : List Byte) (s : State) :
    (s.place bs).pc = s.pc := rfl
@[simp] theorem State.place_status (bs : List Byte) (s : State) :
    (s.place bs).status = .running := rfl
@[simp] theorem State.place_cause (bs : List Byte) (s : State) :
    (s.place bs).cause = none := rfl
@[simp] theorem State.place_faultPc (bs : List Byte) (s : State) :
    (s.place bs).faultPc = 0 := rfl
@[simp] theorem State.place_out (bs : List Byte) (s : State) :
    (s.place bs).out = s.out := rfl

end Sys2Proof.Machine
end

