-- ==== Sys2Proof/Laws/Ops.lean ====
section
/-!
SUPPORT. What each shared operation can do, once: if it answers a next state, then one of these cases holds (00_scope.md R15,
R16; 42_register_ops.md R120), and what a step can do (40_fetch_decode_dispatch.md R96, R98).
-/

namespace Sys2Proof.Machine

@[simp] theorem raise_eq_next {k : FaultKind} {s t : State} : raise k s = .next t ↔ s.faultEntry k = t := by
  simp [raise]

/-- `withTop` raises on an empty stack, else continues with the top of stack. -/
theorem withTop_next {s t : State} {f : Word → Result} (h : withTop s f = .next t) :
    (s.sp = 0 ∧ t = s.faultEntry .stackUnderflow) ∨
    (s.sp ≠ 0 ∧ ∃ v, s.stack[s.sp - 1]? = some v ∧ f v = .next t) := by
  unfold withTop at h
  split at h
  · exact .inl ⟨‹_›, (raise_eq_next.1 h).symm⟩
  · split at h
    · exact .inr ⟨‹_›, _, ‹_›, h⟩
    · cases h

/-- `withTop` on a stack that holds its top slot. -/
theorem withTop_of_top {s : State} {f : Word → Result} {v : Word} (hsp : s.sp ≠ 0)
    (hv : s.stack[s.sp - 1]? = some v) : withTop s f = f v := by
  simp [withTop, hsp, hv]

/-- `withTwo` raises when fewer than two values are live, else continues with the two. -/
theorem withTwo_next {s t : State} {f : Word → Word → Result} (h : withTwo s f = .next t) :
    (s.sp < 2 ∧ t = s.faultEntry .stackUnderflow) ∨
    (2 ≤ s.sp ∧ ∃ a b, s.stack[s.sp - 2]? = some a ∧ s.stack[s.sp - 1]? = some b ∧ f a b = .next t) := by
  unfold withTwo at h
  split at h
  · exact .inl ⟨‹_›, (raise_eq_next.1 h).symm⟩
  · split at h
    · exact .inr ⟨by omega, _, _, ‹_›, ‹_›, h⟩
    · cases h

/-- `withTwo` on a stack that holds its two top slots. -/
theorem withTwo_of_two {s : State} {f : Word → Word → Result} {a b : Word} (hsp : 2 ≤ s.sp)
    (ha : s.stack[s.sp - 2]? = some a) (hb : s.stack[s.sp - 1]? = some b) : withTwo s f = f a b := by
  simp [withTwo, show ¬ s.sp < 2 by omega, ha, hb]

/-- `withRoom` raises on a full stack, else continues where the slot at `sp` exists. -/
theorem withRoom_next {s t : State} {k : Result} (h : withRoom s k = .next t) :
    (s.cfg.stackCap ≤ s.sp ∧ t = s.faultEntry .stackOverflow) ∨
    (s.sp < s.cfg.stackCap ∧ s.sp < s.stack.length ∧ k = .next t) := by
  unfold withRoom at h
  split at h
  · exact .inl ⟨‹_›, (raise_eq_next.1 h).symm⟩
  · split at h
    · exact .inr ⟨by omega, ‹_›, h⟩
    · cases h

/-- `withRoom` on a stack with a free slot. -/
theorem withRoom_of_room {s : State} {k : Result} (hsp : s.sp < s.cfg.stackCap) (hl : s.sp < s.stack.length) :
    withRoom s k = k := by
  simp [withRoom, hl, show ¬ s.cfg.stackCap ≤ s.sp by omega]

/-- `withReg` continues with the register's word. -/
theorem withReg_next {s t : State} {r : Nat} {f : Word → Result} (h : withReg s r f = .next t) :
    ∃ v, s.x[r]? = some v ∧ f v = .next t := by
  unfold withReg at h
  split at h
  · exact ⟨_, ‹_›, h⟩
  · cases h

/-- `writeReg` writes a register that the state holds. -/
theorem writeReg_next {r : Nat} {v : Word} {s t : State} (h : writeReg r v s = .next t) :
    r < s.x.length ∧ t = s.setReg r v := by
  unfold writeReg at h
  split at h
  · exact ⟨‹_›, (Host.Outcome.next.inj h).symm⟩
  · cases h

/-! ### The step -/

/-- A Running core whose fetch succeeds executes what it fetched. -/
theorem step_of_fetch_ok {s : State} {i : Instr} (hs : s.status = .running) (hf : fetch s = .ok i) :
    step s = exec i s := by
  simp [step, hs, hf]

/-- A Running core whose fetch fails enters the fault that fetching names. -/
theorem step_of_fetch_error {s : State} {k : FaultKind} (hs : s.status = .running) (hf : fetch s = .error k) :
    step s = .next (s.faultEntry k) := by
  simp [step, hs, hf, raise]

/-- What a step can do: nothing (the run has ended), a fetch fault, or the fetched instruction. -/
theorem step_next {s t : State} (h : step s = .next t) :
    (s.status ≠ .running ∧ t = s) ∨
    (s.status = .running ∧ ∃ k, fetch s = .error k ∧ t = s.faultEntry k) ∨
    (s.status = .running ∧ ∃ i, fetch s = .ok i ∧ exec i s = .next t) := by
  rcases hs : s.status with _ | _ | _
  · rcases hf : fetch s with k | i
    · rw [step_of_fetch_error hs hf] at h
      exact .inr (.inl ⟨rfl, k, rfl, (Host.Outcome.next.inj h).symm⟩)
    · rw [step_of_fetch_ok hs hf] at h
      exact .inr (.inr ⟨rfl, i, rfl, h⟩)
  all_goals
    simp only [step, hs] at h
    exact .inl ⟨by simp, (Host.Outcome.next.inj h).symm⟩

end Sys2Proof.Machine
end

