-- ==== Sys2Proof/Laws/Exec.lean ====
section
/-!
SUPPORT. Everything an instruction can do when it answers a next state: enter one of its own faults, or complete with its
one effect. One inversion lemma per instruction (files 41 to 45 of the spec); what an instruction leaves alone follows from
these without unfolding a meaning again.
-/

namespace Sys2Proof.Machine

@[simp] theorem State.regInRange_iff {s : State} {r : Nat} : s.regInRange r = true ↔ r < s.cfg.nregs := by
  simp [State.regInRange]

@[simp] theorem isZero_iff {v : Word} : isZero v = true ↔ v = 0#32 := by
  simp [isZero]

theorem execNop_next {s t : State} (h : execNop s = .next t) : t = s.advance 1 :=
  (Host.Outcome.next.inj h).symm

theorem execPush_next {n : Word} {s t : State} (h : execPush n s = .next t) :
    (s.cfg.stackCap ≤ s.sp ∧ t = s.faultEntry .stackOverflow) ∨
    (s.sp < s.cfg.stackCap ∧ s.sp < s.stack.length ∧ t = (s.pushed n).advance 5) := by
  rcases withRoom_next h with h | ⟨h1, h2, h3⟩
  · exact .inl h
  · exact .inr ⟨h1, h2, (Host.Outcome.next.inj h3).symm⟩

theorem execPop_next {s t : State} (h : execPop s = .next t) :
    (s.sp = 0 ∧ t = s.faultEntry .stackUnderflow) ∨ (s.sp ≠ 0 ∧ t = s.dropped.advance 1) := by
  unfold execPop at h
  split at h
  · exact .inl ⟨‹_›, (raise_eq_next.1 h).symm⟩
  · exact .inr ⟨‹_›, (Host.Outcome.next.inj h).symm⟩

theorem execLoad_next {r : Nat} {s t : State} (h : execLoad r s = .next t) :
    (s.cfg.nregs ≤ r ∧ t = s.advance 2) ∨
    (r < s.cfg.nregs ∧ s.cfg.stackCap ≤ s.sp ∧ t = s.faultEntry .stackOverflow) ∨
    (r < s.cfg.nregs ∧ s.sp < s.cfg.stackCap ∧ s.sp < s.stack.length ∧
      ∃ v, s.x[r]? = some v ∧ t = (s.pushed v).advance 2) := by
  unfold execLoad at h
  by_cases hr : r < s.cfg.nregs
  · rw [if_pos (State.regInRange_iff.2 hr)] at h
    rcases withRoom_next h with ⟨h1, h2⟩ | ⟨h1, h2, h3⟩
    · exact .inr (.inl ⟨hr, h1, h2⟩)
    · obtain ⟨v, hv, h4⟩ := withReg_next h3
      exact .inr (.inr ⟨hr, h1, h2, v, hv, (Host.Outcome.next.inj h4).symm⟩)
  · rw [if_neg (by simpa using hr)] at h
    exact .inl ⟨by omega, (Host.Outcome.next.inj h).symm⟩

theorem execStore_next {r : Nat} {s t : State} (h : execStore r s = .next t) :
    (s.sp = 0 ∧ t = s.faultEntry .stackUnderflow) ∨
    (s.sp ≠ 0 ∧ ∃ v, s.stack[s.sp - 1]? = some v ∧
      ((s.cfg.nregs ≤ r ∧ t = s.dropped.advance 2) ∨
       (r < s.cfg.nregs ∧ r < s.x.length ∧ t = (s.dropped.advance 2).setReg r v))) := by
  rcases withTop_next h with h | ⟨h1, v, hv, h⟩
  · exact .inl h
  · refine .inr ⟨h1, v, hv, ?_⟩
    by_cases hr : r < s.cfg.nregs
    · rw [if_pos (State.regInRange_iff.2 hr)] at h
      obtain ⟨h2, h3⟩ := writeReg_next h
      exact .inr ⟨hr, by simpa using h2, h3⟩
    · rw [if_neg (by simpa using hr)] at h
      exact .inl ⟨by omega, (Host.Outcome.next.inj h).symm⟩

theorem execJmp_next {a : Nat} {s t : State} (h : execJmp a s = .next t) : t = s.jumpTo a :=
  (Host.Outcome.next.inj h).symm

theorem execJz_next {a : Nat} {s t : State} (h : execJz a s = .next t) :
    (s.sp = 0 ∧ t = s.faultEntry .stackUnderflow) ∨
    (s.sp ≠ 0 ∧ s.stack[s.sp - 1]? = some 0#32 ∧ t = s.dropped.jumpTo a) ∨
    (s.sp ≠ 0 ∧ ∃ v, s.stack[s.sp - 1]? = some v ∧ v ≠ 0#32 ∧ t = s.dropped.advance 3) := by
  rcases withTop_next h with h | ⟨h1, v, hv, h⟩
  · exact .inl h
  · have h := (Host.Outcome.next.inj h).symm
    by_cases h0 : v = 0#32
    · rw [if_pos (isZero_iff.2 h0)] at h
      exact .inr (.inl ⟨h1, h0 ▸ hv, h⟩)
    · rw [if_neg (by simpa using h0)] at h
      exact .inr (.inr ⟨h1, v, hv, h0, h⟩)

theorem execJnz_next {a : Nat} {s t : State} (h : execJnz a s = .next t) :
    (s.sp = 0 ∧ t = s.faultEntry .stackUnderflow) ∨
    (s.sp ≠ 0 ∧ s.stack[s.sp - 1]? = some 0#32 ∧ t = s.dropped.advance 3) ∨
    (s.sp ≠ 0 ∧ ∃ v, s.stack[s.sp - 1]? = some v ∧ v ≠ 0#32 ∧ t = s.dropped.jumpTo a) := by
  rcases withTop_next h with h | ⟨h1, v, hv, h⟩
  · exact .inl h
  · have h := (Host.Outcome.next.inj h).symm
    by_cases h0 : v = 0#32
    · rw [if_pos (isZero_iff.2 h0)] at h
      exact .inr (.inl ⟨h1, h0 ▸ hv, h⟩)
    · rw [if_neg (by simpa using h0)] at h
      exact .inr (.inr ⟨h1, v, hv, h0, h⟩)

theorem execAdd_next {s t : State} (h : execAdd s = .next t) :
    (s.sp < 2 ∧ t = s.faultEntry .stackUnderflow) ∨
    (2 ≤ s.sp ∧ ∃ a b, s.stack[s.sp - 2]? = some a ∧ s.stack[s.sp - 1]? = some b ∧ t = s.result (aluAdd a b)) := by
  rcases withTwo_next h with h | ⟨h1, a, b, ha, hb, h⟩
  · exact .inl h
  · exact .inr ⟨h1, a, b, ha, hb, (Host.Outcome.next.inj h).symm⟩

theorem execSub_next {s t : State} (h : execSub s = .next t) :
    (s.sp < 2 ∧ t = s.faultEntry .stackUnderflow) ∨
    (2 ≤ s.sp ∧ ∃ a b, s.stack[s.sp - 2]? = some a ∧ s.stack[s.sp - 1]? = some b ∧ t = s.result (aluSub a b)) := by
  rcases withTwo_next h with h | ⟨h1, a, b, ha, hb, h⟩
  · exact .inl h
  · exact .inr ⟨h1, a, b, ha, hb, (Host.Outcome.next.inj h).symm⟩

theorem execMul_next {s t : State} (h : execMul s = .next t) :
    (s.sp < 2 ∧ t = s.faultEntry .stackUnderflow) ∨
    (2 ≤ s.sp ∧ ∃ a b, s.stack[s.sp - 2]? = some a ∧ s.stack[s.sp - 1]? = some b ∧ t = s.result (aluMul a b)) := by
  rcases withTwo_next h with h | ⟨h1, a, b, ha, hb, h⟩
  · exact .inl h
  · exact .inr ⟨h1, a, b, ha, hb, (Host.Outcome.next.inj h).symm⟩

theorem execDiv_next {s t : State} (h : execDiv s = .next t) :
    (s.sp < 2 ∧ t = s.faultEntry .stackUnderflow) ∨
    (2 ≤ s.sp ∧ s.stack[s.sp - 1]? = some 0#32 ∧ t = s.faultEntry .divideByZero) ∨
    (2 ≤ s.sp ∧ ∃ a b, s.stack[s.sp - 2]? = some a ∧ s.stack[s.sp - 1]? = some b ∧ b ≠ 0#32 ∧
      t = s.result (aluTdiv a b)) := by
  rcases withTwo_next h with h | ⟨h1, a, b, ha, hb, h⟩
  · exact .inl h
  · split at h
    · exact .inr (.inl ⟨h1, ‹b = 0#32› ▸ hb, (raise_eq_next.1 h).symm⟩)
    · exact .inr (.inr ⟨h1, a, b, ha, hb, ‹_›, (Host.Outcome.next.inj h).symm⟩)

theorem execPrint_next {s t : State} (h : execPrint s = .next t) :
    (s.sp = 0 ∧ t = s.faultEntry .stackUnderflow) ∨
    (s.sp ≠ 0 ∧ ∃ v, s.stack[s.sp - 1]? = some v ∧ t = (s.dropped.emit v).advance 1) := by
  rcases withTop_next h with h | ⟨h1, v, hv, h⟩
  · exact .inl h
  · exact .inr ⟨h1, v, hv, (Host.Outcome.next.inj h).symm⟩

theorem execStop_next {s t : State} (h : execStop s = .next t) : t = (s.advance 1).halt :=
  (Host.Outcome.next.inj h).symm

end Sys2Proof.Machine
end

