-- ==== Sys2Proof/Laws/Memory.lean ====
section
/-!
SUPPORT. The laws of the instruction buffer: what a read gives after a write, that every write keeps the canonical form
and the buffer's bounds, and what reading consecutive bytes gives (20_memory.md, 70_reset_and_hazards.md R204).
-/

namespace Sys2Proof.Machine

@[simp] theorem Memory.read_nil (a : Nat) : Memory.read [] a = 0#8 := rfl

theorem Memory.read_cons (a' : Nat) (b : Byte) (m : Memory) (a : Nat) :
    Memory.read ((a', b) :: m) a = if a' = a then b else Memory.read m a := rfl

/-! ### The canonical form -/

/-- A buffer canonical from `hi` on is canonical from any lower address on. -/
theorem Memory.wfFrom_mono {lo hi : Nat} (h : lo ≤ hi) {m : Memory} (hm : Memory.wfFrom hi m = true) :
    Memory.wfFrom lo m = true := by
  cases m with
  | nil => rfl
  | cons c rest =>
    simp only [Memory.wfFrom, Bool.and_eq_true, decide_eq_true_eq] at hm ⊢
    exact ⟨⟨by omega, hm.1.2⟩, hm.2⟩

/-- An address below the first listed one reads the reset content. -/
theorem Memory.read_of_lt_wfFrom {lo a : Nat} (h : a < lo) {m : Memory} (hm : Memory.wfFrom lo m = true) :
    Memory.read m a = 0#8 := by
  induction m generalizing lo with
  | nil => rfl
  | cons c rest ih =>
    simp only [Memory.wfFrom, Bool.and_eq_true, decide_eq_true_eq] at hm
    rw [Memory.read_cons, if_neg (by omega)]
    exact ih (by omega) hm.2

theorem Memory.write_wfFrom {lo a : Nat} (h : lo ≤ a) (b : Byte) {m : Memory}
    (hm : Memory.wfFrom lo m = true) : Memory.wfFrom lo (Memory.write m a b) = true := by
  induction m generalizing lo with
  | nil =>
    simp only [Memory.write]
    split <;> simp_all [Memory.wfFrom]
  | cons c rest ih =>
    obtain ⟨a', b'⟩ := c
    simp only [Memory.wfFrom, Bool.and_eq_true, decide_eq_true_eq] at hm
    obtain ⟨⟨hlo, hb'⟩, hrest⟩ := hm
    simp only [Memory.write]
    split
    · split <;> simp_all [Memory.wfFrom]
    · split
      · subst a'
        split
        · exact Memory.wfFrom_mono (by omega) hrest
        · simp_all [Memory.wfFrom]
      · simp only [Memory.wfFrom, Bool.and_eq_true, decide_eq_true_eq]
        exact ⟨⟨hlo, hb'⟩, ih (by omega) hrest⟩

/-- A write keeps the canonical form. -/
theorem Memory.write_wf (a : Nat) (b : Byte) {m : Memory} (hm : Memory.wf m = true) :
    Memory.wf (Memory.write m a b) = true := Memory.write_wfFrom (Nat.zero_le a) b hm

/-- Writing consecutive bytes keeps the canonical form. -/
theorem Memory.writeBytes_wf (bs : List Byte) : ∀ (a : Nat) {m : Memory}, Memory.wf m = true →
    Memory.wf (Memory.writeBytes m a bs) = true := by
  induction bs with
  | nil => exact fun _ _ hm => hm
  | cons b rest ih => exact fun a _ hm => ih (a + 1) (Memory.write_wf a b hm)

@[simp] theorem Memory.below_nil (limit : Nat) : Memory.below limit [] = true := rfl

@[simp] theorem Memory.below_cons (limit a : Nat) (b : Byte) (m : Memory) :
    Memory.below limit ((a, b) :: m) = (decide (a < limit) && Memory.below limit m) := rfl

/-- A write below the limit keeps every listed address below it. -/
theorem Memory.write_below {limit a : Nat} (h : a < limit) (b : Byte) {m : Memory}
    (hm : Memory.below limit m = true) : Memory.below limit (Memory.write m a b) = true := by
  induction m with
  | nil =>
    simp only [Memory.write]
    split <;> simp [h]
  | cons c rest ih =>
    obtain ⟨a', b'⟩ := c
    simp only [Memory.below_cons, Bool.and_eq_true, decide_eq_true_eq] at hm
    simp only [Memory.write]
    repeat' split
    all_goals simp [h, hm.1, hm.2, ih hm.2]

/-- Writing consecutive bytes below the limit keeps every listed address below it. -/
theorem Memory.writeBytes_below (bs : List Byte) : ∀ (a : Nat) {limit : Nat} {m : Memory},
    a + bs.length ≤ limit → Memory.below limit m = true →
    Memory.below limit (Memory.writeBytes m a bs) = true := by
  induction bs with
  | nil => exact fun _ _ _ _ hm => hm
  | cons b rest ih =>
    intro a limit m h hm
    simp only [List.length_cons] at h
    exact ih (a + 1) (by omega) (Memory.write_below (by omega) b hm)

/-! ### Reading what was written -/

theorem Memory.read_write_wfFrom {lo a : Nat} (h : lo ≤ a) (b : Byte) {m : Memory}
    (hm : Memory.wfFrom lo m = true) (c : Nat) :
    Memory.read (Memory.write m a b) c = if c = a then b else Memory.read m c := by
  induction m generalizing lo with
  | nil =>
    simp only [Memory.write]
    by_cases hc : c = a
    · split <;> simp_all [Memory.read]
    · split <;> simp [Memory.read, Ne.symm hc]
  | cons cell rest ih =>
    obtain ⟨a', b'⟩ := cell
    simp only [Memory.wfFrom, Bool.and_eq_true, decide_eq_true_eq] at hm
    obtain ⟨⟨hlo, -⟩, hrest⟩ := hm
    simp only [Memory.write]
    split
    · split
      · rcases eq_or_ne c a with rfl | hc
        · rw [if_pos rfl, Memory.read_cons, if_neg (by omega), ‹b = 0#8›]
          exact Memory.read_of_lt_wfFrom (by omega) hrest
        · rw [if_neg hc]
      · rw [Memory.read_cons]
        by_cases hc : c = a
        · rw [if_pos hc, if_pos hc.symm]
        · rw [if_neg hc, if_neg (Ne.symm hc)]
    · split
      · subst a'
        split
        · rcases eq_or_ne c a with rfl | hc
          · rw [if_pos rfl, ‹b = 0#8›]
            exact Memory.read_of_lt_wfFrom (Nat.lt_succ_self _) hrest
          · rw [if_neg hc, Memory.read_cons, if_neg (Ne.symm hc)]
        · rw [Memory.read_cons, Memory.read_cons]
          rcases eq_or_ne c a with rfl | hc
          · simp
          · simp [hc, Ne.symm hc]
      · rw [Memory.read_cons, Memory.read_cons, ih (by omega) hrest]
        rcases eq_or_ne c a with rfl | hc
        · rw [if_neg (by omega), if_pos rfl]; simp
        · simp [hc]

/-- A read after a write: the byte written at that address, the old byte at every other. -/
theorem Memory.read_write {m : Memory} (hm : Memory.wf m = true) (a : Nat) (b : Byte) (c : Nat) :
    Memory.read (Memory.write m a b) c = if c = a then b else Memory.read m c :=
  Memory.read_write_wfFrom (Nat.zero_le a) b hm c

/-- A read after writing consecutive bytes: inside the written range the byte written there, outside it the old one. -/
theorem Memory.read_writeBytes (bs : List Byte) : ∀ (a : Nat) {m : Memory}, Memory.wf m = true → ∀ c : Nat,
    Memory.read (Memory.writeBytes m a bs) c =
      if a ≤ c ∧ c < a + bs.length then bs.getD (c - a) 0 else Memory.read m c := by
  induction bs with
  | nil => intro a m _ c; simp [Memory.writeBytes]
  | cons b rest ih =>
    intro a m hm c
    rw [Memory.writeBytes, ih (a + 1) (Memory.write_wf a b hm) c, Memory.read_write hm]
    simp only [List.length_cons]
    rcases lt_trichotomy c a with h | rfl | h
    · rw [if_neg (by omega), if_neg (by omega), if_neg (by omega)]
    · rw [if_neg (by omega), if_pos rfl, if_pos (by omega)]; simp
    · rw [if_neg (show ¬ c = a by omega)]
      have e : c - a = (c - (a + 1)) + 1 := by omega
      by_cases hc : c < a + (rest.length + 1)
      · rw [if_pos (by omega), if_pos (by omega), e]; simp
      · rw [if_neg (by omega), if_neg (by omega)]

/-! ### Reading consecutive bytes -/

@[simp] theorem State.bytesFrom_zero (s : State) (a : Nat) : s.bytesFrom a 0 = [] := rfl

theorem State.bytesFrom_succ (s : State) (a n : Nat) :
    s.bytesFrom a (n + 1) =
      if a < s.cfg.maxInsts then Memory.read s.imem a :: s.bytesFrom (a + 1) n else [] := rfl

/-- As many bytes as were asked for, or as the instruction space still has. -/
theorem State.bytesFrom_length (s : State) (n : Nat) : ∀ a : Nat,
    (s.bytesFrom a n).length = min n (s.cfg.maxInsts - a) := by
  induction n with
  | zero => intro a; simp
  | succ n ih =>
    intro a
    rw [State.bytesFrom_succ]
    split
    · rw [List.length_cons, ih]; omega
    · simp only [List.length_nil]; omega

/-- The first `k` of `n` bytes are the `k` bytes at the same address. -/
theorem State.bytesFrom_take (s : State) (k : Nat) : ∀ (a n : Nat), k ≤ n →
    (s.bytesFrom a n).take k = s.bytesFrom a k := by
  induction k with
  | zero => intro a n _; simp
  | succ k ih =>
    intro a n h
    obtain ⟨n, rfl⟩ : ∃ m, n = m + 1 := ⟨n - 1, by omega⟩
    rw [State.bytesFrom_succ, State.bytesFrom_succ]
    split
    · rw [List.take_succ_cons, ih _ _ (by omega)]
    · rfl

/-- Reading the code depends on nothing of the state but the buffer and its size. -/
theorem State.bytesFrom_congr {s t : State} (hc : t.cfg.maxInsts = s.cfg.maxInsts) (n : Nat) : ∀ a : Nat,
    (∀ k, k < n → a + k < s.cfg.maxInsts → Memory.read t.imem (a + k) = Memory.read s.imem (a + k)) →
    t.bytesFrom a n = s.bytesFrom a n := by
  induction n with
  | zero => intro a _; rfl
  | succ n ih =>
    intro a h
    rw [State.bytesFrom_succ, State.bytesFrom_succ, hc]
    split
    · next ha =>
      have h0 := h 0 (by omega) (by omega)
      rw [Nat.add_zero] at h0
      rw [h0]
      congr 1
      refine ih (a + 1) fun k hk hlt => ?_
      have := h (k + 1) (by omega) (by omega)
      rwa [show a + (k + 1) = a + 1 + k by omega] at this
    · rfl

/-- Bytes that stand in the buffer at `a`, inside the instruction space, are what reading there gives. -/
theorem State.bytesFrom_eq (s : State) (bs : List Byte) : ∀ a : Nat, a + bs.length ≤ s.cfg.maxInsts →
    (∀ k, k < bs.length → Memory.read s.imem (a + k) = bs.getD k 0) → s.bytesFrom a bs.length = bs := by
  induction bs with
  | nil => exact fun _ _ _ => rfl
  | cons b rest ih =>
    intro a h hr
    simp only [List.length_cons] at h hr ⊢
    have h0 : Memory.read s.imem a = b := by simpa using hr 0 (by omega)
    rw [State.bytesFrom_succ, if_pos (by omega), h0, ih (a + 1) (by omega)]
    intro k hk
    rw [show a + 1 + k = a + (k + 1) by omega, hr (k + 1) (by omega)]
    simp

/-! ### The buffer of a reset, loaded or patched state -/

/-- Reset leaves the buffer canonical, with nothing listed. -/
theorem State.reset_imem_wf : Memory.wf State.reset.imem = true := rfl

/-- Loading keeps the canonical form. -/
theorem load_imem_wf (bytes : List Byte) {s : State} (h : Memory.wf s.imem = true) :
    Memory.wf (load bytes s).imem = true := by
  unfold load
  split
  · exact Memory.writeBytes_wf _ _ h
  · split
    · exact h
    · exact Memory.writeBytes_wf _ _ h

/-- Placing an instruction keeps the canonical form. -/
theorem State.place_imem_wf (bs : List Byte) {s : State} (h : Memory.wf s.imem = true) :
    Memory.wf (s.place bs).imem = true := Memory.writeBytes_wf _ _ h

end Sys2Proof.Machine
end

