-- ==== Sys2Proof/Laws/PerInstr.lean ====
section
/-!
SUPPORT. Statements about every instruction as syntax, one lemma per constructor. `Encoding`: an encoding is 1, 2, 3 or 5 bytes
long, begins with the instruction's opcode byte, and holds the operand's value whole after it (30_encoding.md R70 to R72).
-/

namespace Sys2Proof.Laws.Encoding

/-- The encoding of `i` has the length of its format, starts with its opcode byte, and the little-endian value of the bytes
after that is the operand, for a well-formed instruction. -/
def Statement (i : Instr) : Prop :=
  (encode i).length = i.length ∧ i.length ∈ [1, 2, 3, 5] ∧ (encode i).head? = some i.opcodeByte ∧
    (i.WellFormed = true → leNat (encode i).tail = i.rawOperand)

theorem nop : Statement .nop :=
  ⟨rfl, by decide, rfl, fun _ => rfl⟩

theorem push (n : Word) : Statement (.push n) := by
  refine ⟨rfl, by simp [Instr.length, Instr.operandWidth], rfl, fun h => ?_⟩
  simp [encode, leBytes, leNat, Instr.operandWidth, Instr.rawOperand]
  omega

theorem pop : Statement .pop :=
  ⟨rfl, by decide, rfl, fun _ => rfl⟩

theorem load (r : Nat) : Statement (.load r) := by
  refine ⟨rfl, by simp [Instr.length, Instr.operandWidth], rfl, fun h => ?_⟩
  simp only [Instr.WellFormed, decide_eq_true_eq] at h
  simp [encode, leBytes, leNat, Instr.operandWidth, Instr.rawOperand]
  omega

theorem store (r : Nat) : Statement (.store r) := by
  refine ⟨rfl, by simp [Instr.length, Instr.operandWidth], rfl, fun h => ?_⟩
  simp only [Instr.WellFormed, decide_eq_true_eq] at h
  simp [encode, leBytes, leNat, Instr.operandWidth, Instr.rawOperand]
  omega

theorem jmp (t : Nat) : Statement (.jmp t) := by
  refine ⟨rfl, by simp [Instr.length, Instr.operandWidth], rfl, fun h => ?_⟩
  simp only [Instr.WellFormed, decide_eq_true_eq] at h
  simp [encode, leBytes, leNat, Instr.operandWidth, Instr.rawOperand]
  omega

theorem jz (t : Nat) : Statement (.jz t) := by
  refine ⟨rfl, by simp [Instr.length, Instr.operandWidth], rfl, fun h => ?_⟩
  simp only [Instr.WellFormed, decide_eq_true_eq] at h
  simp [encode, leBytes, leNat, Instr.operandWidth, Instr.rawOperand]
  omega

theorem jnz (t : Nat) : Statement (.jnz t) := by
  refine ⟨rfl, by simp [Instr.length, Instr.operandWidth], rfl, fun h => ?_⟩
  simp only [Instr.WellFormed, decide_eq_true_eq] at h
  simp [encode, leBytes, leNat, Instr.operandWidth, Instr.rawOperand]
  omega

theorem add : Statement .add :=
  ⟨rfl, by decide, rfl, fun _ => rfl⟩

theorem sub : Statement .sub :=
  ⟨rfl, by decide, rfl, fun _ => rfl⟩

theorem mul : Statement .mul :=
  ⟨rfl, by decide, rfl, fun _ => rfl⟩

theorem div : Statement .div :=
  ⟨rfl, by decide, rfl, fun _ => rfl⟩

theorem print : Statement .print :=
  ⟨rfl, by decide, rfl, fun _ => rfl⟩

theorem stop : Statement .stop :=
  ⟨rfl, by decide, rfl, fun _ => rfl⟩

end Sys2Proof.Laws.Encoding
end

