-- ==== Sys2Proof/Laws/Run.lean ====
section
/-!
SUPPORT. How runs compose, and what the loader answers (70_reset_and_hazards.md R204 to R208).
-/

namespace Sys2Proof.Machine

@[simp] theorem runFor_zero (s : State) : runFor 0 s = .next s := rfl

/-- A run of `n + 1` steps starts with one step. -/
theorem runFor_succ {n : Nat} {s t : State} :
    runFor (n + 1) s = .next t ↔ ∃ u, step s = .next u ∧ runFor n u = .next t := by
  rw [runFor]
  constructor
  · intro h
    split at h
    · exact ⟨_, ‹_›, h⟩
    · cases h
    · cases h
  · rintro ⟨u, h1, h2⟩
    rw [h1]
    exact h2

/-- A run goes on from where a shorter run ended. -/
theorem runFor_add (n k : Nat) : ∀ {s t : State}, runFor n s = .next t → runFor (n + k) s = runFor k t := by
  induction n with
  | zero =>
    intro s t h
    rw [Host.Outcome.next.inj h, Nat.zero_add]
  | succ n ih =>
    intro s t h
    obtain ⟨u, h1, h2⟩ := runFor_succ.1 h
    rw [show n + 1 + k = (n + k) + 1 by omega, runFor, h1]
    exact ih h2

/-- The loader on a program that fits. -/
theorem load_of_le {bytes : List Byte} {s : State} (h : bytes.length ≤ s.cfg.maxInsts) :
    load bytes s = { s with imem := Memory.writeBytes s.imem 0 bytes } := if_pos h

/-- The strict loader on a program that does not fit. -/
theorem load_of_lt_strict {bytes : List Byte} {s : State} (h : s.cfg.maxInsts < bytes.length)
    (hm : s.cfg.loadMode = .strict) :
    load bytes s = { s with status := .faulted, cause := some .programTooLarge, faultPc := 0 } := by
  rw [load, if_neg (by omega), hm]

/-- The permissive loader on a program that does not fit. -/
theorem load_of_lt_permissive {bytes : List Byte} {s : State} (h : s.cfg.maxInsts < bytes.length)
    (hm : s.cfg.loadMode = .permissive) :
    load bytes s = { s with imem := Memory.writeBytes s.imem 0 (bytes.take s.cfg.maxInsts) } := by
  rw [load, if_neg (by omega), hm]

end Sys2Proof.Machine
end

