-- ==== Sys2Proof/Tests/Slice0.lean ====
section
/-!
SUPPORT. Small tests: ill-formed terms refused, words written out from the spec's encodings, single steps taken from the
spec's vectors (95_test_vectors.md, named V<n> or S<n>), and for each statement with hypotheses a state and operands that meet
them, clause by clause.
-/

namespace Sys2Proof.Machine.Tests

/-- A TINY core (STACK_SIZE 4, NREGS 2, MAX_INSTS 32) at `pc` with the live words `vals`, bottom first. -/
def tiny (vals : List Word) (pc : Nat) : State :=
  { State.resetOf Config.tiny with
    stack := vals ++ List.replicate (4 - vals.length) 0#32, sp := vals.length, pc := pc }

/-- A TINY core at address 0 with a program loaded. -/
def prog (bytes : List Byte) : State := boot Config.tiny bytes

/-- The state an answer holds. -/
def after (r : Result) : Option State :=
  match r with
  | .next t => some t
  | .fault _ => none
  | .refused _ => none

/-- What a test looks at after an instruction that runs on. -/
def seen (r : Result) : Option (Nat × Nat × List Word) :=
  (after r).map fun t => (t.pc, t.sp, t.stack.take t.sp)

/-- What a test looks at after a fault. -/
def fault (r : Result) : Option (Status × Option FaultKind × Nat × Nat) :=
  (after r).map fun t => (t.status, t.cause, t.faultPc, t.sp)

/-! ### Ill-formed terms are refused, one for each check -/

theorem test_ill_formed_load : (Instr.load 256).WellFormed = false := by decide
theorem test_ill_formed_store : (Instr.store 256).WellFormed = false := by decide
theorem test_ill_formed_jmp : (Instr.jmp 65536).WellFormed = false := by decide
theorem test_ill_formed_jz : (Instr.jz 65536).WellFormed = false := by decide
theorem test_ill_formed_jnz : (Instr.jnz 65536).WellFormed = false := by decide
theorem test_largest_operands_well_formed :
    (Instr.load 255).WellFormed ∧ (Instr.jmp 65535).WellFormed ∧ (Instr.push (-1)).WellFormed := by decide

/-! ### Words written out bit by bit from R71 and R76 -/

theorem test_decode_nop : decode [0b00000000] = .instr .nop 1 := by decide
theorem test_decode_push :
    decode [0b00000001, 0b11111001, 0b11111111, 0b11111111, 0b11111111] = .instr (.push (BitVec.ofInt 32 (-7))) 5 := by
  decide
theorem test_decode_pop : decode [0b00000010, 0x0D] = .instr .pop 1 := by decide
theorem test_decode_load : decode [0b00000011, 0b00001111] = .instr (.load 15) 2 := by decide
theorem test_decode_store : decode [0b00000100, 0b11001000] = .instr (.store 200) 2 := by decide
theorem test_decode_jmp : decode [0b00000101, 0b00110100, 0b00010010] = .instr (.jmp 0x1234) 3 := by decide
theorem test_decode_jz : decode [0b00000110, 0b00100111, 0b00000000] = .instr (.jz 39) 3 := by decide
theorem test_decode_jnz : decode [0b00000111, 0b00000000, 0b10000000] = .instr (.jnz 32768) 3 := by decide
theorem test_decode_add : decode [0b00001000] = .instr .add 1 := by decide
theorem test_decode_sub : decode [0b00001001] = .instr .sub 1 := by decide
theorem test_decode_mul : decode [0b00001010] = .instr .mul 1 := by decide
theorem test_decode_div : decode [0b00001011] = .instr .div 1 := by decide
theorem test_decode_print : decode [0b00001100] = .instr .print 1 := by decide
theorem test_decode_stop : decode [0b00001101] = .instr .stop 1 := by decide
/-- V14. -/
theorem test_decode_invalid :
    decode [0x0E] = .invalid 0x0E ∧ decode [0x10, 0x00] = .invalid 0x10 ∧ decode [0x80] = .invalid 0x80 := by decide
/-- S7. -/
theorem test_stream_round_trip :
    (decodeStream 8 [0x00, 0x08, 0x09, 0x0A, 0x0B, 0x0C, 0x02, 0x0D]).map encodeStream =
      some [0x00, 0x08, 0x09, 0x0A, 0x0B, 0x0C, 0x02, 0x0D] := by decide
/-- The host's numbering: bit 0 is the least significant bit of the first byte (R71). -/
theorem test_table_word : decodeTableWord 40 0x1234567801 = some (.push 0x12345678) ∧
    decodeTableWord 8 0x01 = some (.push 0) ∧ decodeTableWord 24 0xFFFF05 = some (.jmp 65535) := by decide

/-! ### Single steps from the spec's vectors -/

/-- V120. -/
theorem test_nop : seen (exec .nop (tiny [] 6)) = some (7, 0, []) := by decide
/-- V41, V42. -/
theorem test_push : seen (exec (.push 3) (tiny [1, 2] 10)) = some (15, 3, [1, 2, 3]) := by decide
/-- V43. -/
theorem test_push_full :
    fault (exec (.push 4) (tiny [1, 2, 3] 15)) = some (.faulted, some .stackOverflow, 15, 3) := by decide
/-- V47. -/
theorem test_pop : seen (exec .pop (tiny [7, 9] 10)) = some (11, 1, [7]) := by decide
/-- V46. -/
theorem test_pop_empty : fault (exec .pop (tiny [] 0)) = some (.faulted, some .stackUnderflow, 0, 0) := by decide
/-- V50. -/
theorem test_load_reset : seen (exec (.load 1) (tiny [] 0)) = some (2, 1, [0]) := by decide
/-- V56, V57. -/
theorem test_load_full : seen (exec (.load 2) (tiny [1, 2, 3] 15)) = some (17, 3, [1, 2, 3]) ∧
    fault (exec (.load 0) (tiny [1, 2, 3] 15)) = some (.faulted, some .stackOverflow, 15, 3) := by decide
/-- V51. -/
theorem test_store : (after (exec (.store 0) (tiny [9] 5))).map (fun t => (t.pc, t.sp, t.x)) = some (7, 0, [9, 0]) := by
  decide
/-- V58 and the quirk of V53 in TINY. -/
theorem test_store_out_of_range : fault (exec (.store 5) (tiny [] 0)) = some (.faulted, some .stackUnderflow, 0, 0) ∧
    (after (exec (.store 5) (tiny [9] 5))).map (fun t => (t.pc, t.sp, t.x)) = some (7, 0, [0, 0]) := by decide
/-- V62, V63, V64. -/
theorem test_jmp : seen (exec (.jmp 40) (tiny [] 0)) = some (3, 0, []) ∧
    seen (exec (.jmp 32) (tiny [] 0)) = some (3, 0, []) ∧ seen (exec (.jmp 31) (tiny [] 0)) = some (31, 0, []) := by
  decide
/-- V66, V68. -/
theorem test_jz : seen (exec (.jz 13) (tiny [0] 5)) = some (13, 0, []) ∧
    seen (exec (.jz 13) (tiny [0x80000000] 5)) = some (8, 0, []) := by decide
/-- V72. -/
theorem test_jz_invalid_target : seen (exec (.jz 32) (tiny [0] 5)) = some (8, 0, []) := by decide
/-- V69, V70. -/
theorem test_jnz : seen (exec (.jnz 13) (tiny [0] 5)) = some (8, 0, []) ∧
    seen (exec (.jnz 14) (tiny [0xFFFFFFFF] 5)) = some (14, 0, []) := by decide
/-- V73. -/
theorem test_jnz_invalid_target : seen (exec (.jnz 65535) (tiny [5] 5)) = some (8, 0, []) := by decide
/-- V92. -/
theorem test_add_wraps : seen (exec .add (tiny [0x7FFFFFFF, 1] 0)) = some (1, 1, [0x80000000]) := by decide
/-- V111. -/
theorem test_add_underflow :
    fault (exec .add (tiny [4] 5)) = some (.faulted, some .stackUnderflow, 5, 1) := by decide
/-- V113. -/
theorem test_sub_order : seen (exec .sub (tiny [9, 5, 3] 0)) = some (1, 2, [9, 2]) := by decide
/-- V100. -/
theorem test_mul_wraps :
    seen (exec .mul (tiny [46341, 46341] 0)) = some (1, 1, [BitVec.ofInt 32 (-2147479015)]) := by decide
/-- V85, V94. -/
theorem test_div_truncates :
    seen (exec .div (tiny [BitVec.ofInt 32 (-7), 2] 10)) = some (11, 1, [BitVec.ofInt 32 (-3)]) ∧
    seen (exec .div (tiny [0x80000000, 0xFFFFFFFF] 0)) = some (1, 1, [0x80000000]) := by decide
/-- V89, V112. -/
theorem test_div_faults : fault (exec .div (tiny [5, 0] 10)) = some (.faulted, some .divideByZero, 10, 2) ∧
    fault (exec .div (tiny [0] 10)) = some (.faulted, some .stackUnderflow, 10, 1) := by decide
/-- V122. -/
theorem test_print : (after (exec .print { tiny [7, 0xFFFFFFFD] 0 with out := [1] })).map (fun t => (t.sp, t.out)) =
    some (1, [1, 0xFFFFFFFD]) := by decide
/-- V125. -/
theorem test_stop : (after (exec .stop (tiny [1, 2] 10))).map (fun t => (t.status, t.pc, t.sp, t.cause)) =
    some (.halted, 11, 2, none) := by decide

/-! ### The step, the loader and the host's view -/

/-- V20's last fetch, V25, V126: past the end, an invalid opcode in the last byte, an ended run. -/
theorem test_step_fetch_faults :
    fault (step (tiny [] 32)) = some (.faulted, some .truncatedProgram, 32, 0) ∧
    fault (step { tiny [] 31 with imem := [(31, 0x0E)] }) = some (.faulted, some .invalidOpcode, 31, 0) ∧
    after (step { tiny [] 3 with status := .halted }) = some { tiny [] 3 with status := .halted } := by decide
/-- V27 and V24: the operand bound comes before the instruction's own check, and is exact. -/
theorem test_step_priority :
    fault (step { tiny [1, 2, 3] 28 with imem := [(28, 0x01)] }) = some (.faulted, some .truncatedProgram, 28, 3) ∧
    fault (step { tiny [] 29 with imem := [(29, 0x06)] }) = some (.faulted, some .stackUnderflow, 29, 0) := by decide
/-- V28: operand bytes past the program read as zero. -/
theorem test_step_short_program : seen (step (prog [0x01])) = some (5, 1, [0]) := by decide
/-- V31: the strict loader. -/
theorem test_load_too_long : boot Config.tiny (List.replicate 33 0x0D) =
    { State.resetOf Config.tiny with status := .faulted, cause := some .programTooLarge } := by decide
/-- The first instruction after reset (R71, R207). -/
theorem test_first_word :
    seen (step (State.reset.withFetchWord 40 0xFFFFFFF901)) = some (5, 1, [BitVec.ofInt 32 (-7)]) := by decide +kernel
/-- S1 and the rendering of R163. -/
theorem test_render : renderOut [120, BitVec.ofInt 32 (-3), 0, 0x80000000] =
    [0x31, 0x32, 0x30, 0x0A, 0x2D, 0x33, 0x0A, 0x30, 0x0A,
     0x2D, 0x32, 0x31, 0x34, 0x37, 0x34, 0x38, 0x33, 0x36, 0x34, 0x38, 0x0A] := by decide
/-- The notation of R84. -/
theorem test_listing : listing (.push (BitVec.ofInt 32 (-7))) = "PUSH -7" ∧ listing (.jnz 7) = "JNZ 7" ∧
    listing .add = "ADD" := by decide
/-- R27: 17 bits for REF, and R23: 8 and 2 bits. -/
theorem test_widths : Config.ref.pcWidth = 17 ∧ Config.ref.spWidth = 8 ∧ Config.tiny.spWidth = 2 := by decide
/-- A write keeps the canonical form, and writing 0x00 unlists (R41). -/
theorem test_memory_canonical : Memory.write (Memory.writeBytes [] 3 [5, 6]) 3 0 = [(4, 6)] ∧
    Memory.wf [(4, 6), (4, 7)] = false ∧ Memory.wf [(4, 0)] = false := by decide

/-! ### Witnesses: the hypotheses of the statements can be met, at the edges of their ranges -/

/-- A core that is Running on the words `vals`, at `pc`, is a state of the spec. -/
theorem tiny_inv (vals : List Word) (pc : Nat) (hv : vals.length ≤ 3) (hp : pc ≤ 32) : (tiny vals pc).Inv where
  cfg_wf := (by decide : Config.tiny.wf)
  stack_length := by
    simp only [tiny, List.length_append, List.length_replicate]
    show vals.length + (4 - vals.length) = 4
    omega
  x_length := rfl
  imem_wf := rfl
  imem_below := rfl
  sp_le := hv
  pc_le := hp
  faulted_iff := by simp [tiny, State.resetOf]
  faultPc_eq := rfl

/-- A TINY core with these words and this code is a state of the spec. -/
theorem tiny_inv_code (vals : List Word) (pc : Nat) (m : Memory) (hv : vals.length ≤ 3) (hp : pc ≤ 32)
    (hm : Memory.wf m = true) (hb : Memory.below 32 m = true) : { tiny vals pc with imem := m }.Inv :=
  { tiny_inv vals pc hv hp with imem_wf := hm, imem_below := hb }

theorem witness_InvalidOpcodesAreThoseAboveTheTable :
    0x0E ≤ (0x0E : Byte).toNat ∧ decode [0x0E] = .invalid 0x0E := by decide

theorem witness_DecodeOfEncodeIsTheInstruction :
    (Instr.load 255).WellFormed = true ∧ (Instr.jz 65535).WellFormed = true := by decide

theorem witness_EncodeOfDecodeIsTheBytes :
    decode [0x07, 0xFF, 0xFF, 0x0D] = .instr (.jnz 65535) 3 := by decide

theorem witness_StreamRoundTrip :
    decodeStream 2 [0x03, 0xFF, 0x0D] = some [.load 255, .stop] ∧
    ∀ i ∈ [Instr.load 255, .stop], i.WellFormed = true := by decide

/-- PUSH and LOAD: the last push that fits, a full stack. -/
theorem witness_PushWritesTheNextSlot :
    (tiny [1, 2] 10).Inv ∧ (tiny [1, 2] 10).sp < (tiny [1, 2] 10).cfg.stackCap ∧
    (tiny [1, 2, 3] 15).cfg.stackCap ≤ (tiny [1, 2, 3] 15).sp :=
  ⟨tiny_inv _ _ (by decide) (by decide), by decide, by decide⟩

theorem witness_PopDropsTheTop : (tiny [1] 0).sp ≠ 0 ∧ (tiny [] 0).sp = 0 := by decide

theorem witness_LoadPushesTheRegister :
    (tiny [1, 2] 0).Inv ∧ (tiny [1, 2] 0).x[1]? = some 0#32 ∧ (tiny [1, 2] 0).sp < (tiny [1, 2] 0).cfg.stackCap ∧
    (tiny [] 0).cfg.nregs ≤ 2 ∧ 1 < (tiny [1, 2, 3] 0).cfg.nregs ∧
    (tiny [1, 2, 3] 0).cfg.stackCap ≤ (tiny [1, 2, 3] 0).sp :=
  ⟨tiny_inv _ _ (by decide) (by decide), by decide⟩

theorem witness_StorePopsIntoTheRegister :
    (tiny [9] 5).Inv ∧ (tiny [9] 5).sp ≠ 0 ∧ (tiny [9] 5).stack[(tiny [9] 5).sp - 1]? = some 9 ∧
    1 < (tiny [9] 5).cfg.nregs ∧ (tiny [9] 5).cfg.nregs ≤ 2 ∧ (tiny [] 5).sp = 0 :=
  ⟨tiny_inv _ _ (by decide) (by decide), by decide⟩

theorem witness_JmpGoesToAValidTarget : 31 < (tiny [] 0).cfg.maxInsts ∧ (tiny [] 0).cfg.maxInsts ≤ 32 := by decide

theorem witness_JzPopsAndJumpsOnZero : (tiny [0] 5).sp ≠ 0 ∧
    (tiny [0] 5).stack[(tiny [0] 5).sp - 1]? = some 0 ∧ (tiny [] 5).sp = 0 := by decide

theorem witness_JnzPopsAndJumpsOnNonzero : (tiny [0xFFFFFFFF] 5).sp ≠ 0 ∧
    (tiny [0xFFFFFFFF] 5).stack[(tiny [0xFFFFFFFF] 5).sp - 1]? = some 0xFFFFFFFF ∧ (tiny [] 5).sp = 0 := by decide

/-- ADD, SUB and MUL: two values at the lowest depth that works, and one value. -/
theorem witness_AddReplacesTwoByTheirSum : 2 ≤ (tiny [5, 3] 0).sp ∧
    (tiny [5, 3] 0).stack[(tiny [5, 3] 0).sp - 2]? = some 5 ∧
    (tiny [5, 3] 0).stack[(tiny [5, 3] 0).sp - 1]? = some 3 ∧ (tiny [4] 0).sp < 2 := by decide

theorem witness_SubReplacesTwoByTheirDifference : 2 ≤ (tiny [5, 3] 0).sp ∧
    (tiny [5, 3] 0).stack[(tiny [5, 3] 0).sp - 2]? = some 5 ∧
    (tiny [5, 3] 0).stack[(tiny [5, 3] 0).sp - 1]? = some 3 ∧ (tiny [4] 0).sp < 2 := by decide

theorem witness_MulReplacesTwoByTheirProduct : 2 ≤ (tiny [5, 3] 0).sp ∧
    (tiny [5, 3] 0).stack[(tiny [5, 3] 0).sp - 2]? = some 5 ∧
    (tiny [5, 3] 0).stack[(tiny [5, 3] 0).sp - 1]? = some 3 ∧ (tiny [4] 0).sp < 2 := by decide

theorem witness_DivReplacesTwoByTheirQuotient : 2 ≤ (tiny [5, 3] 0).sp ∧
    (tiny [5, 3] 0).stack[(tiny [5, 3] 0).sp - 2]? = some 5 ∧
    (tiny [5, 3] 0).stack[(tiny [5, 3] 0).sp - 1]? = some 3 ∧ (3 : Word) ≠ 0#32 ∧
    2 ≤ (tiny [5, 0] 0).sp ∧ (tiny [5, 0] 0).stack[(tiny [5, 0] 0).sp - 1]? = some 0#32 ∧ (tiny [0] 0).sp < 2 := by
  decide

theorem witness_PrintPopsAndEmits : (tiny [2] 11).sp ≠ 0 ∧
    (tiny [2] 11).stack[(tiny [2] 11).sp - 1]? = some 2 ∧ (tiny [] 0).sp = 0 := by decide

/-- One state serves every instruction: two values, the top not 0, one slot free. -/
theorem witness_EveryInstructionCompletesWhenReady :
    (tiny [5, 3] 0).Inv ∧ (tiny [5, 3] 0).status = .running ∧ (tiny [5, 3] 0).sp < (tiny [5, 3] 0).cfg.stackCap ∧
    2 ≤ (tiny [5, 3] 0).sp ∧ (tiny [5, 3] 0).stack[(tiny [5, 3] 0).sp - 1]? ≠ some 0#32 :=
  ⟨tiny_inv _ _ (by decide) (by decide), by decide⟩

/-- Each fault of the table is met, and a completion. -/
theorem witness_ExecutionFaultTable : (tiny [1, 2, 3] 0).cause = none ∧
    (after (exec (.load 1) (tiny [1, 2, 3] 0))).map State.cause = some (some .stackOverflow) ∧
    (after (exec .print (tiny [] 0))).map State.cause = some (some .stackUnderflow) ∧
    (after (exec .mul (tiny [1] 0))).map State.cause = some (some .stackUnderflow) ∧
    (after (exec .div (tiny [1, 0] 0))).map State.cause = some (some .divideByZero) ∧
    (after (exec .add (tiny [1, 0] 0))).map State.cause = some none := by decide

/-- For NoInstructionWritesCode, StackSlotFrame, OutputFrame, StatusFrame, StackPointerTable and ProgramCounterTable: from one
Running state every instruction answers a next state, so each of them speaks of every instruction. -/
theorem witness_frames : (tiny [5, 3] 0).status = .running ∧
    ∀ i ∈ [Instr.nop, .push 1, .pop, .load 1, .store 1, .jmp 31, .jz 31, .jnz 31, .add, .sub, .mul, .div, .print, .stop],
      (after (exec i (tiny [5, 3] 0))).isSome = true := by decide

/-- The cases of the register frame: a STORE in range with a value on the stack, out of range, on an empty stack. -/
theorem witness_RegisterFrame :
    (after (exec (.store 1) (tiny [9] 0))).isSome = true ∧ 1 < (tiny [9] 0).cfg.nregs ∧ (tiny [9] 0).sp ≠ 0 ∧
    (after (exec (.store 2) (tiny [9] 0))).isSome = true ∧ (tiny [9] 0).cfg.nregs ≤ 2 ∧
    (after (exec (.store 1) (tiny [] 0))).isSome = true := by decide

/-- A five-byte instruction that ends exactly at the end of the buffer (V20). -/
theorem witness_StepRunsTheDecodedInstruction :
    { tiny [] 27 with imem := [(27, 0x01), (28, 0x01)] }.status = .running ∧ (Instr.push 1).WellFormed = true ∧
    27 < (tiny [] 27).cfg.maxInsts ∧ Memory.read [(27, 0x01), (28, 0x01)] 27 = (Instr.push 1).opcodeByte ∧
    27 + 1 + (Instr.push 1).operandWidth ≤ (tiny [] 27).cfg.maxInsts ∧
    { tiny [] 27 with imem := [(27, 0x01), (28, 0x01)] }.memRead 28 4 = (Instr.push 1).rawOperand := by decide

theorem witness_opcode_free (i : Instr) : i.opcodeByte ≠ 0x0E := by cases i <;> simp [Instr.opcodeByte]

/-- Each clause at its edge: `pc` at the end, an invalid byte in the last place, a LOAD there, a LOAD one place earlier. -/
theorem witness_FetchFaultsInOrder :
    (tiny [] 32).status = .running ∧ (tiny [] 32).cfg.maxInsts ≤ (tiny [] 32).pc ∧
    (31 < (tiny [] 31).cfg.maxInsts ∧ ∀ i : Instr, i.opcodeByte ≠ Memory.read [(31, 0x0E)] 31) ∧
    ((Instr.load 0).opcodeByte = Memory.read [(31, 0x03)] 31 ∧
      (tiny [] 31).cfg.maxInsts < 31 + 1 + (Instr.load 0).operandWidth) ∧
    ((Instr.load 0).opcodeByte = Memory.read [(30, 0x03)] 30 ∧
      30 + 1 + (Instr.load 0).operandWidth ≤ (tiny [] 30).cfg.maxInsts) :=
  ⟨by decide, by decide, ⟨by decide, witness_opcode_free⟩, by decide, by decide⟩

/-- Two states that differ in everything fetching does not read. -/
theorem witness_FetchIsLocal : (tiny [] 4).pc = { tiny [1] 4 with out := [3] }.pc ∧
    (tiny [] 4).cfg.maxInsts = { tiny [1] 4 with out := [3] }.cfg.maxInsts ∧
    ∀ k, k < 5 → Memory.read (tiny [] 4).imem (4 + k) = Memory.read { tiny [1] 4 with out := [3] }.imem (4 + k) :=
  ⟨rfl, rfl, fun _ _ => rfl⟩

theorem witness_FaultsArePrecise : (tiny [1] 32).status = .running ∧
    (after (step (tiny [1] 32))).map State.status = some .faulted := by decide

theorem witness_OnlyStopHalts : { tiny [] 0 with imem := [(0, 0x0D)] }.status = .running ∧
    (after (step { tiny [] 0 with imem := [(0, 0x0D)] })).map State.status = some .halted := by decide

theorem witness_EndedRunsNeverChange : { tiny [] 0 with status := .halted }.status ≠ .running := by decide

/-- For BootGivesAStateOfTheSpec and InvariantHoldsAtReset: configurations that R8 allows, the smallest among them. -/
theorem witness_configurations : Config.tiny.wf ∧ Config.ref.wf ∧
    Config.wf { stackSize := 1, nregs := 1, maxInsts := 1, loadMode := .permissive } := by decide

/-- For StepKeepsTheInvariant and RunsNeverLeaveTheSpec: a state of the spec and a step that goes on from it. -/
theorem witness_StepKeepsTheInvariant : (tiny [5, 3] 0).Inv ∧ (after (step (tiny [5, 3] 0))).isSome = true :=
  ⟨tiny_inv _ _ (by decide) (by decide), by decide⟩

theorem witness_RunsKeepCodeAndOnlyExtendOutput :
    (after (runFor 2 { tiny [5, 3] 0 with imem := [(0, 0x0C)] })).map State.out = some [3] := by decide

/-- A run of one LOAD 0: it answers a next state, and the instruction it executes is no STORE. -/
theorem witness_StoredRegisterStaysUntilNextStore :
    (after (runFor 1 { tiny [] 0 with imem := [(0, 0x03)] })).isSome = true ∧
    fetch { tiny [] 0 with imem := [(0, 0x03)] } = .ok (.load 0) ∧ Instr.load 0 ≠ .store 0 := by
  refine ⟨by decide, rfl, by decide⟩

theorem witness_DeadSlotsAreUnobservable :
    (tiny [5] 0).SameLive { tiny [5] 0 with stack := [5, 8, 9, 7] } ∧ (after (runFor 1 (tiny [5] 0))).isSome = true :=
  ⟨⟨rfl, rfl, by decide⟩, by decide⟩

/-- A step that takes a jump, and one that does not. -/
theorem witness_OnlyTakenJumpsDoNotAdvance :
    { tiny [] 0 with imem := [(0, 0x05), (1, 31)] }.takenTarget = some 31 ∧
    (after (step { tiny [] 0 with imem := [(0, 0x05), (1, 31)] })).map State.status = some .running ∧
    (tiny [] 0).takenTarget = none ∧ (after (step (tiny [] 0))).map State.status = some .running := by decide

/-- `JMP 5`, and STOP at 5. -/
def forwardCore : State := { tiny [] 0 with imem := [(0, 0x05), (1, 0x05), (5, 0x0D)] }

/-- A run that takes one jump, forward, and halts at its target. -/
theorem witness_ForwardOnlyRunsEnd : forwardCore.Inv ∧ forwardCore.status = .running ∧
    forwardCore.takenTarget = some 5 ∧
    ∀ (n p : Nat) (u : State), runFor n forwardCore = .next u → u.status = .running →
      u.takenTarget = some p → u.pc < p := by
  refine ⟨tiny_inv_code [] 0 _ (by decide) (by decide) (by decide) (by decide), rfl, by decide, ?_⟩
  have ended : ∀ m, runFor m { forwardCore with pc := 6, status := .halted } =
      .next { forwardCore with pc := 6, status := .halted } := by
    intro m
    induction m with
    | zero => rfl
    | succ m ih => exact ih
  intro n p u h hu ht
  match n, h with
  | 0, h =>
    rw [← Host.Outcome.next.inj h] at ht ⊢
    exact Option.some.inj ((by decide : forwardCore.takenTarget = some 5).symm.trans ht) ▸ (by decide)
  | 1, h =>
    have h1 : runFor 1 forwardCore = .next { forwardCore with pc := 5 } := rfl
    rw [← Host.Outcome.next.inj (h1.symm.trans h)] at ht
    exact absurd ht (by rw [(by decide : State.takenTarget { forwardCore with pc := 5 } = none)]; simp)
  | m + 2, h =>
    have h2 : runFor (m + 2) forwardCore = .next { forwardCore with pc := 6, status := .halted } := ended m
    rw [← Host.Outcome.next.inj (h2.symm.trans h)] at hu
    cases hu

theorem witness_ZeroPaddingRunsToTheEnd : (tiny [1] 30).Inv ∧ (tiny [1] 30).status = .running ∧
    ∀ a, (tiny [1] 30).pc ≤ a → a < (tiny [1] 30).cfg.maxInsts → Memory.read (tiny [1] 30).imem a = 0#8 :=
  ⟨tiny_inv _ _ (by decide) (by decide), rfl, fun _ _ _ => rfl⟩

/-- For PushThenPopRestores, StoreAndLoadAreInverse and JzAndJnzAreComplementary: room for one push and a value on the
stack, a register in range, a valid target. -/
theorem witness_laws : (tiny [1, 2] 0).Inv ∧ (tiny [1, 2] 0).sp < (tiny [1, 2] 0).cfg.stackCap ∧
    1 ≤ (tiny [1, 2] 0).sp ∧ (tiny [1, 2] 0).stack[(tiny [1, 2] 0).sp - 1]? = some 2 ∧
    1 < (tiny [1, 2] 0).cfg.nregs ∧ 31 < (tiny [1, 2] 0).cfg.maxInsts :=
  ⟨tiny_inv _ _ (by decide) (by decide), by decide⟩

theorem witness_StackHoldsExactlyStackCapWords : (tiny [] 0).Inv ∧ (tiny [] 0).sp = 0 ∧
    ([1, 2, 3] : List Word).length = (tiny [] 0).cfg.stackCap :=
  ⟨tiny_inv _ _ (by decide) (by decide), by decide⟩

/-- For WrapKeepsTheLowBits and QuotientRoundsTowardZero: sums at the edges of `Int32`, a divisor, the overflowing quotient and one that does not. -/
theorem witness_alu : (0x7FFFFFFE : Word).toInt + (1 : Word).toInt = 2 ^ 31 - 1 ∧
    (0x80000001 : Word).toInt - (1 : Word).toInt = -2 ^ 31 ∧ (0x80000000 : Word).toInt * (1 : Word).toInt = -2 ^ 31 ∧
    (0x80000000 : Word).toInt = -2 ^ 31 ∧ (0xFFFFFFFF : Word).toInt = -1 ∧ (0xFFFFFFFF : Word) ≠ 0#32 ∧
    ¬((0x80000001 : Word).toInt = -2 ^ 31 ∧ (0xFFFFFFFF : Word).toInt = -1) := by decide

/-- For BootLeavesTheResetTable and LoaderModesDifferOnlyOnLongPrograms: a program that just fits, one byte more, and both modes. -/
theorem witness_loader : (List.replicate 32 (0 : Byte)).length ≤ Config.tiny.maxInsts ∧
    Config.tiny.maxInsts < (List.replicate 33 (0 : Byte)).length ∧ Config.tiny.loadMode = .strict ∧
    { Config.tiny with loadMode := .permissive }.loadMode = .permissive := by decide

/-- A run that ends within its fuel (`PRINT` on an empty stack, and STOP). -/
theorem witness_RunOutcomeIsFinal : (tiny [] 0).Inv ∧ hostRun 1 Config.tiny [0x0D] = some (.completed, []) ∧
    hostRun 1 Config.tiny [0x0C] = some (.faulted .stackUnderflow 0, []) :=
  ⟨tiny_inv _ _ (by decide) (by decide), by decide⟩

theorem witness_RegisterWidthsAreLeast : (tiny [1, 2, 3] 32).Inv ∧ Config.tiny.stackCap < 2 ^ 2 ∧
    Config.tiny.maxInsts < 2 ^ 6 ∧ Config.ref.maxInsts = 65536 :=
  ⟨tiny_inv _ _ (by decide) (by decide), by decide⟩

theorem witness_PlacedWordRunsNext : (tiny [] 27).Inv ∧ (tiny [] 27).pc + 5 ≤ (tiny [] 27).cfg.maxInsts ∧
    decodeTableWord 40 0xFFFFFFF901 = some (.push (BitVec.ofInt 32 (-7))) :=
  ⟨tiny_inv _ _ (by decide) (by decide), by decide⟩

end Sys2Proof.Machine.Tests
end

