-- ==== Sys2Proof/Proofs/ScopeFrames.lean ====
section
/-!
What every instruction keeps when it answers a next state, stated once (`exec_next_frame`), and what follows from it for the
run-status registers (00_scope.md R16, 10_state.md R32 to R35) and along runs (00_scope.md R8, 10_state.md R36,
20_memory.md R51, R63).
-/

namespace Sys2Proof.Machine

/-! ### One instruction -/

/-- What the completion of instruction `i` in `s`, ending in `t`, leaves as it was: the parameters, the code, every register
but the one a STORE names, the fault registers, the words already emitted, and the status but for STOP. -/
structure CompletionFrame (i : Instr) (s t : State) : Prop where
  cfg : t.cfg = s.cfg
  imem : t.imem = s.imem
  x : ∀ j, i ≠ .store j → t.x[j]? = s.x[j]?
  out : s.out <+: t.out
  cause : t.cause = s.cause
  faultPc : t.faultPc = s.faultPc
  status : t.status = if i = .stop then .halted else s.status

/-- An instruction that answers a next state made a fault entry or completed with its frame kept. -/
theorem exec_next_frame {i : Instr} {s t : State} (h : exec i s = .next t) :
    (∃ k, t = s.faultEntry k) ∨ CompletionFrame i s t := by
  cases i with
  | nop =>
    obtain rfl := execNop_next h
    exact .inr (by constructor <;> simp)
  | push n =>
    obtain ⟨-, ht⟩ | ⟨-, -, rfl⟩ := execPush_next h
    · exact .inl ⟨_, ht⟩
    · exact .inr (by constructor <;> simp)
  | pop =>
    obtain ⟨-, ht⟩ | ⟨-, rfl⟩ := execPop_next h
    · exact .inl ⟨_, ht⟩
    · exact .inr (by constructor <;> simp)
  | load r =>
    obtain ⟨-, rfl⟩ | ⟨-, -, ht⟩ | ⟨-, -, -, v, -, rfl⟩ := execLoad_next h
    · exact .inr (by constructor <;> simp)
    · exact .inl ⟨_, ht⟩
    · exact .inr (by constructor <;> simp)
  | store r =>
    obtain ⟨-, ht⟩ | ⟨-, v, -, ⟨-, rfl⟩ | ⟨-, -, rfl⟩⟩ := execStore_next h
    · exact .inl ⟨_, ht⟩
    · exact .inr (by constructor <;> simp)
    · exact .inr (by constructor <;> simp +contextual [List.getElem?_set_ne])
  | jmp a =>
    obtain rfl := execJmp_next h
    exact .inr (by constructor <;> simp)
  | jz a =>
    obtain ⟨-, ht⟩ | ⟨-, -, rfl⟩ | ⟨-, v, -, -, rfl⟩ := execJz_next h
    · exact .inl ⟨_, ht⟩
    all_goals exact .inr (by constructor <;> simp)
  | jnz a =>
    obtain ⟨-, ht⟩ | ⟨-, -, rfl⟩ | ⟨-, v, -, -, rfl⟩ := execJnz_next h
    · exact .inl ⟨_, ht⟩
    all_goals exact .inr (by constructor <;> simp)
  | add =>
    obtain ⟨-, ht⟩ | ⟨-, a, b, -, -, rfl⟩ := execAdd_next h
    · exact .inl ⟨_, ht⟩
    · exact .inr (by constructor <;> simp)
  | sub =>
    obtain ⟨-, ht⟩ | ⟨-, a, b, -, -, rfl⟩ := execSub_next h
    · exact .inl ⟨_, ht⟩
    · exact .inr (by constructor <;> simp)
  | mul =>
    obtain ⟨-, ht⟩ | ⟨-, a, b, -, -, rfl⟩ := execMul_next h
    · exact .inl ⟨_, ht⟩
    · exact .inr (by constructor <;> simp)
  | div =>
    obtain ⟨-, ht⟩ | ⟨-, -, ht⟩ | ⟨-, a, b, -, -, -, rfl⟩ := execDiv_next h
    · exact .inl ⟨_, ht⟩
    · exact .inl ⟨_, ht⟩
    · exact .inr (by constructor <;> simp)
  | print =>
    obtain ⟨-, ht⟩ | ⟨-, v, -, rfl⟩ := execPrint_next h
    · exact .inl ⟨_, ht⟩
    · exact .inr (by constructor <;> simp)
  | stop =>
    obtain rfl := execStop_next h
    exact .inr (by constructor <;> simp)

/-- Settles O28: the fault entry is the first alternative, the frame of a completion the second. -/
theorem statusFrame : Obligations.StatusFrame := by
  intro i s t h
  obtain ⟨k, rfl⟩ | hc := exec_next_frame h
  · exact .inl ⟨k, rfl⟩
  · exact .inr ⟨hc.cause, hc.faultPc, hc.status⟩

/-! ### Any number of steps -/

/-- Every instruction that fetching yields is well formed (R74, R75). -/
theorem wellFormed_of_fetch_ok {s : State} {i : Instr} (h : fetch s = .ok i) : i.WellFormed = true := by
  unfold fetch State.decodeAt at h
  cases hb : s.bytesFrom s.pc maxInstrBytes with
  | nil => simp [hb] at h
  | cons op rest =>
    rw [hb, decode_cons] at h
    split at h
    · obtain rfl := Except.ok.inj h
      obtain ⟨-, -, -, -, hwf⟩ := decodeOpcode_instr ‹decodeOpcode op rest = _›
      exact hwf
    · cases h
    · cases h

/-- What a run from `s` to `t` leaves as it was: the parameters, the code, the registers no STORE can name, and the words
already emitted. -/
structure RunFrame (s t : State) : Prop where
  cfg : t.cfg = s.cfg
  imem : t.imem = s.imem
  x : ∀ j, 256 ≤ j → t.x[j]? = s.x[j]?
  out : s.out <+: t.out

theorem RunFrame.refl (s : State) : RunFrame s s := ⟨rfl, rfl, fun _ _ => rfl, ⟨[], List.append_nil _⟩⟩

theorem RunFrame.trans {s u t : State} (h₁ : RunFrame s u) (h₂ : RunFrame u t) : RunFrame s t where
  cfg := h₂.cfg.trans h₁.cfg
  imem := h₂.imem.trans h₁.imem
  x j hj := (h₂.x j hj).trans (h₁.x j hj)
  out := h₁.out.trans h₂.out

theorem faultEntry_runFrame (k : FaultKind) (s : State) : RunFrame s (s.faultEntry k) :=
  ⟨rfl, rfl, fun _ _ => rfl, ⟨[], List.append_nil _⟩⟩

/-- The completion of a well-formed instruction: the register index of a STORE fits one byte. -/
theorem CompletionFrame.runFrame {i : Instr} {s t : State} (hi : i.WellFormed = true) (h : CompletionFrame i s t) :
    RunFrame s t where
  cfg := h.cfg
  imem := h.imem
  x j hj := h.x j <| by
    rintro rfl
    have : j < 256 := by simpa [Instr.WellFormed] using hi
    omega
  out := h.out

theorem step_runFrame {s t : State} (h : step s = .next t) : RunFrame s t := by
  obtain ⟨-, rfl⟩ | ⟨-, k, -, rfl⟩ | ⟨-, i, hf, he⟩ := step_next h
  · exact .refl t
  · exact faultEntry_runFrame k s
  · obtain ⟨k, rfl⟩ | hc := exec_next_frame he
    · exact faultEntry_runFrame k s
    · exact hc.runFrame (wellFormed_of_fetch_ok hf)

/-- A relation that holds from a state to itself and goes through a step holds from the start of a run to its end. -/
theorem runFor_rel {R : State → State → Prop} (refl : ∀ s, R s s)
    (head : ∀ {s u t}, step s = .next u → R u t → R s t) (n : Nat) :
    ∀ {s t : State}, runFor n s = .next t → R s t := by
  induction n with
  | zero =>
    intro s t h
    obtain rfl := Host.Outcome.next.inj h
    exact refl s
  | succ n ih =>
    intro s t h
    obtain ⟨u, hu, hrun⟩ := runFor_succ.1 h
    exact head hu (ih hrun)

theorem runFor_runFrame {n : Nat} {s t : State} (h : runFor n s = .next t) : RunFrame s t :=
  runFor_rel (R := RunFrame) .refl (fun hstep hrun => (step_runFrame hstep).trans hrun) n h

/-- Settles O39, by the frame of a run. -/
theorem runsKeepCodeAndOnlyExtendOutput : Obligations.RunsKeepCodeAndOnlyExtendOutput := by
  intro n s t h
  obtain ⟨hcfg, himem, hx, new, hout⟩ := runFor_runFrame h
  exact ⟨hcfg, himem, hx, new, hout.symm⟩

end Sys2Proof.Machine
end

