-- ==== Sys2Proof/Proofs/StackCapacity.lean ====
section
/-!
How many words the stack takes (00_scope.md R7, 41_stack_ops.md R111): PUSH below and at the capacity, and a row of PUSHes.
-/

namespace Sys2Proof.Machine

theorem exec_push_of_room {n : Word} {s : State} (hsp : s.sp < s.cfg.stackCap) (hl : s.sp < s.stack.length) :
    exec (.push n) s = .next ((s.pushed n).advance 5) :=
  withRoom_of_room hsp hl

theorem exec_push_of_full {n : Word} {s : State} (hsp : s.cfg.stackCap ≤ s.sp) :
    exec (.push n) s = .next (s.faultEntry .stackOverflow) :=
  if_pos hsp

/-- In a state of the spec every slot below the capacity exists: there is one slot more (R7, R22). -/
theorem State.Inv.stackCap_lt_length {s : State} (h : s.Inv) : s.cfg.stackCap < s.stack.length := by
  have hlen := h.stack_length
  have hpos := h.cfg_wf.1
  unfold Config.stackCap
  omega

@[simp] theorem execSeq_nil (s : State) : execSeq [] s = .next s := rfl

/-- A sequence goes on from where its first instruction ended. -/
theorem execSeq_cons_of_next {i : Instr} {is : List Instr} {s u : State} (h : exec i s = .next u) :
    execSeq (i :: is) s = execSeq is u := by
  rw [execSeq, h]

/-- The live words after a push: those before it, then the word pushed. -/
theorem State.pushed_live {s : State} (hl : s.sp < s.stack.length) (v : Word) :
    (s.pushed v).stack.take (s.pushed v).sp = s.stack.take s.sp ++ [v] := by
  simp [List.take_add_one, hl, List.take_set, List.set_eq_of_length_le]

/-- A row of PUSHes that fits below the capacity completes, puts its words in order on the live words and enters no fault. -/
theorem execSeq_push_of_room (ns : List Word) : ∀ {s : State}, s.sp + ns.length ≤ s.cfg.stackCap →
    s.cfg.stackCap ≤ s.stack.length →
    ∃ t, execSeq (ns.map .push) s = .next t ∧ t.cfg = s.cfg ∧ t.sp = s.sp + ns.length ∧
      t.stack.take t.sp = s.stack.take s.sp ++ ns ∧ t.cause = s.cause := by
  induction ns with
  | nil => exact fun _ _ => ⟨_, rfl, rfl, rfl, by simp, rfl⟩
  | cons n ns ih =>
    intro s hroom hlen
    rw [List.length_cons] at hroom
    have hslot : s.sp < s.stack.length := by omega
    have hpush := exec_push_of_room (n := n) (by omega) hslot
    obtain ⟨t, hrun, hcfg, hsp, hlive, hcause⟩ :=
      ih (s := (s.pushed n).advance 5) (by simp; omega) (by simpa using hlen)
    refine ⟨t, (execSeq_cons_of_next hpush).trans hrun, hcfg, ?_, ?_, hcause⟩
    · rw [hsp, State.advance_sp, State.pushed_sp, List.length_cons]
      omega
    · rw [hlive, State.advance_stack, State.advance_sp, State.pushed_live hslot, List.append_assoc,
        List.singleton_append]

/-- Settles O48: a row of `stackCap` PUSHes on an empty stack fits, and leaves no room for one more. -/
theorem stackHoldsExactlyStackCapWords : Obligations.StackHoldsExactlyStackCapWords := by
  intro ns n s hinv hempty hns
  obtain ⟨t, hrun, hcfg, hsp, hlive, hcause⟩ :=
    execSeq_push_of_room ns (s := s) (by omega) hinv.stackCap_lt_length.le
  have hfull : t.sp = s.cfg.stackCap := by omega
  refine ⟨t, hrun, hfull, ?_, hcause, exec_push_of_full (by rw [hcfg, hfull])⟩
  simpa [hempty] using hlive

end Sys2Proof.Machine
end

