-- ==== Sys2Proof/Proofs/Completion.lean ====
section
/-!
How an instruction completes, as one relation (`Completes`), and the tables that follow from it: registers (10_state.md R26),
stack slots and stack pointer (R24), program counter (R28) and output log (R36).
-/

namespace Sys2Proof.Machine

/-! ### The completions -/

/-- The ways an instruction completes in `s` without a fault, each with the state it ends in (files 41 to 45). -/
inductive Completes (s : State) : Instr → State → Prop
  | nop : Completes s .nop (s.advance 1)
  | push {n : Word} (room : s.sp < s.cfg.stackCap) : Completes s (.push n) ((s.pushed n).advance 5)
  | pop (nonempty : s.sp ≠ 0) : Completes s .pop (s.dropped.advance 1)
  | loadOutOfRange {r : Nat} (range : s.cfg.nregs ≤ r) : Completes s (.load r) (s.advance 2)
  | load {r : Nat} {v : Word} (range : r < s.cfg.nregs) (room : s.sp < s.cfg.stackCap) (value : s.x[r]? = some v) :
      Completes s (.load r) ((s.pushed v).advance 2)
  | storeOutOfRange {r : Nat} (range : s.cfg.nregs ≤ r) (nonempty : s.sp ≠ 0) :
      Completes s (.store r) (s.dropped.advance 2)
  | store {r : Nat} {v : Word} (range : r < s.cfg.nregs) (held : r < s.x.length) (nonempty : s.sp ≠ 0)
      (top : s.stack[s.sp - 1]? = some v) : Completes s (.store r) ((s.dropped.advance 2).setReg r v)
  | jmp {a : Nat} : Completes s (.jmp a) (s.jumpTo a)
  | jzZero {a : Nat} (nonempty : s.sp ≠ 0) (top : s.stack[s.sp - 1]? = some 0#32) :
      Completes s (.jz a) (s.dropped.jumpTo a)
  | jzNonzero {a : Nat} (nonempty : s.sp ≠ 0) (top : s.stack[s.sp - 1]? ≠ some 0#32) :
      Completes s (.jz a) (s.dropped.advance 3)
  | jnzZero {a : Nat} (nonempty : s.sp ≠ 0) (top : s.stack[s.sp - 1]? = some 0#32) :
      Completes s (.jnz a) (s.dropped.advance 3)
  | jnzNonzero {a : Nat} (nonempty : s.sp ≠ 0) (top : s.stack[s.sp - 1]? ≠ some 0#32) :
      Completes s (.jnz a) (s.dropped.jumpTo a)
  | add {a b : Word} (two : 2 ≤ s.sp) (under : s.stack[s.sp - 2]? = some a) (top : s.stack[s.sp - 1]? = some b) :
      Completes s .add (s.result (aluAdd a b))
  | sub {a b : Word} (two : 2 ≤ s.sp) (under : s.stack[s.sp - 2]? = some a) (top : s.stack[s.sp - 1]? = some b) :
      Completes s .sub (s.result (aluSub a b))
  | mul {a b : Word} (two : 2 ≤ s.sp) (under : s.stack[s.sp - 2]? = some a) (top : s.stack[s.sp - 1]? = some b) :
      Completes s .mul (s.result (aluMul a b))
  | div {a b : Word} (two : 2 ≤ s.sp) (under : s.stack[s.sp - 2]? = some a) (top : s.stack[s.sp - 1]? = some b)
      (divisor : b ≠ 0#32) : Completes s .div (s.result (aluTdiv a b))
  | print {v : Word} (nonempty : s.sp ≠ 0) (top : s.stack[s.sp - 1]? = some v) :
      Completes s .print ((s.dropped.emit v).advance 1)
  | stop : Completes s .stop ((s.advance 1).halt)

/-- An instruction that answers a next state made a fault entry or completed. -/
theorem exec_next_completes {i : Instr} {s t : State} (h : exec i s = .next t) :
    (∃ k, t = s.faultEntry k) ∨ Completes s i t := by
  cases i with
  | nop =>
    obtain rfl := execNop_next h
    exact .inr .nop
  | push n =>
    obtain ⟨-, ht⟩ | ⟨hroom, -, rfl⟩ := execPush_next h
    · exact .inl ⟨_, ht⟩
    · exact .inr (.push hroom)
  | pop =>
    obtain ⟨-, ht⟩ | ⟨hsp, rfl⟩ := execPop_next h
    · exact .inl ⟨_, ht⟩
    · exact .inr (.pop hsp)
  | load r =>
    obtain ⟨hr, rfl⟩ | ⟨-, -, ht⟩ | ⟨hr, hroom, -, v, hv, rfl⟩ := execLoad_next h
    · exact .inr (.loadOutOfRange hr)
    · exact .inl ⟨_, ht⟩
    · exact .inr (.load hr hroom hv)
  | store r =>
    obtain ⟨-, ht⟩ | ⟨hsp, v, hv, ⟨hr, rfl⟩ | ⟨hr, hheld, rfl⟩⟩ := execStore_next h
    · exact .inl ⟨_, ht⟩
    · exact .inr (.storeOutOfRange hr hsp)
    · exact .inr (.store hr hheld hsp hv)
  | jmp a =>
    obtain rfl := execJmp_next h
    exact .inr .jmp
  | jz a =>
    obtain ⟨-, ht⟩ | ⟨hsp, h0, rfl⟩ | ⟨hsp, v, hv, h0, rfl⟩ := execJz_next h
    · exact .inl ⟨_, ht⟩
    · exact .inr (.jzZero hsp h0)
    · exact .inr (.jzNonzero hsp (by simpa [hv] using h0))
  | jnz a =>
    obtain ⟨-, ht⟩ | ⟨hsp, h0, rfl⟩ | ⟨hsp, v, hv, h0, rfl⟩ := execJnz_next h
    · exact .inl ⟨_, ht⟩
    · exact .inr (.jnzZero hsp h0)
    · exact .inr (.jnzNonzero hsp (by simpa [hv] using h0))
  | add =>
    obtain ⟨-, ht⟩ | ⟨h2, a, b, ha, hb, rfl⟩ := execAdd_next h
    · exact .inl ⟨_, ht⟩
    · exact .inr (.add h2 ha hb)
  | sub =>
    obtain ⟨-, ht⟩ | ⟨h2, a, b, ha, hb, rfl⟩ := execSub_next h
    · exact .inl ⟨_, ht⟩
    · exact .inr (.sub h2 ha hb)
  | mul =>
    obtain ⟨-, ht⟩ | ⟨h2, a, b, ha, hb, rfl⟩ := execMul_next h
    · exact .inl ⟨_, ht⟩
    · exact .inr (.mul h2 ha hb)
  | div =>
    obtain ⟨-, ht⟩ | ⟨-, -, ht⟩ | ⟨h2, a, b, ha, hb, h0, rfl⟩ := execDiv_next h
    · exact .inl ⟨_, ht⟩
    · exact .inl ⟨_, ht⟩
    · exact .inr (.div h2 ha hb h0)
  | print =>
    obtain ⟨-, ht⟩ | ⟨hsp, v, hv, rfl⟩ := execPrint_next h
    · exact .inl ⟨_, ht⟩
    · exact .inr (.print hsp hv)
  | stop =>
    obtain rfl := execStop_next h
    exact .inr .stop

/-- A completion of a Running core is not Faulted. -/
theorem CompletionFrame.status_ne_faulted {i : Instr} {s t : State} (h : CompletionFrame i s t)
    (hs : s.status = .running) : t.status ≠ .faulted := by
  rw [h.status, hs]
  split <;> simp

/-- In a Running core the status after an instruction tells its fault entry from its completion. -/
theorem exec_next_of_running {i : Instr} {s t : State} (hs : s.status = .running) (h : exec i s = .next t) :
    (∃ k, t = s.faultEntry k) ∨ (t.status ≠ .faulted ∧ Completes s i t ∧ CompletionFrame i s t) := by
  obtain hk | hframe := exec_next_frame h
  · exact .inl hk
  · exact (exec_next_completes h).imp_right fun hc => ⟨hframe.status_ne_faulted hs, hc, hframe⟩

/-! ### Registers and stack slots -/

theorem Completes.x_length {i : Instr} {s t : State} (h : Completes s i t) : t.x.length = s.x.length := by
  cases h <;> simp

theorem Completes.stack_length {i : Instr} {s t : State} (h : Completes s i t) : t.stack.length = s.stack.length := by
  cases h <;> simp

/-- What STORE does to the register it names: it writes the top of stack where the register exists and the stack holds a
value, and leaves it alone otherwise (R123). -/
theorem exec_store_register {r : Nat} {s t : State} (h : exec (.store r) s = .next t) :
    (s.cfg.nregs ≤ r ∨ s.sp = 0 → t.x[r]? = s.x[r]?) ∧
    (r < s.cfg.nregs → s.sp ≠ 0 → t.x[r]? = s.stack[s.sp - 1]?) := by
  obtain ⟨hsp, rfl⟩ | ⟨hsp, v, hv, ⟨hr, rfl⟩ | ⟨hr, hheld, rfl⟩⟩ := execStore_next h
  · exact ⟨fun _ => rfl, fun _ hne => absurd hsp hne⟩
  · exact ⟨fun _ => rfl, fun hlt => absurd hlt (by omega)⟩
  · exact ⟨fun hno => absurd hno (by omega), fun _ _ => by simp [hv, hheld]⟩

/-- Settles O23: the frame of a completion keeps every register that no STORE names. -/
theorem registerFrame : Obligations.RegisterFrame := by
  intro i s t j h
  refine ⟨?_, fun hkeep => ?_, fun hi => ?_⟩
  · obtain ⟨k, rfl⟩ | hc := exec_next_completes h
    · rfl
    · exact hc.x_length
  · by_cases hi : i = .store j
    · subst hi
      exact (exec_store_register h).1 (hkeep.resolve_left (· rfl))
    · obtain ⟨k, rfl⟩ | hframe := exec_next_frame h
      · rfl
      · exact hframe.x j hi
  · subst hi
    exact (exec_store_register h).2

/-- Settles O24: a fault entry leaves the stack alone, and a completion writes one slot or none. -/
theorem stackSlotFrame : Obligations.StackSlotFrame := by
  intro i s t h
  obtain ⟨k, rfl⟩ | hc := exec_next_completes h
  · cases i <;> simp
  · cases hc with
    | push | load => exact ⟨by simp, fun j hj => by simp [List.getElem?_set_ne hj.symm]⟩
    | add two | sub two | mul two | div two =>
      exact ⟨by simp, fun j hj => by simp [List.getElem?_set_ne (show s.sp - 2 ≠ j by omega)]⟩
    | _ => simp

/-! ### Stack pointer, program counter and output log -/

/-- Settles O25: each completion moves `sp` by its row of the table, and a fault entry leaves it. -/
theorem stackPointerTable : Obligations.StackPointerTable := by
  intro i s t hs h
  obtain ⟨k, rfl⟩ | ⟨hnf, hc, -⟩ := exec_next_of_running hs h
  · simp
  · rw [if_neg hnf]
    cases hc with
    | loadOutOfRange range => simp [Nat.not_lt.2 range]
    | load range => simp [range]
    | add two | sub two | mul two | div two => simp only [State.result_sp]; omega
    | pop hsp | storeOutOfRange _ hsp | store _ _ hsp | jzZero hsp | jzNonzero hsp | jnzZero hsp | jnzNonzero hsp
    | print hsp => simp; omega
    | _ => rfl

/-- Settles O26: each completion sets `pc` by its row of the table, and a fault entry records it. -/
theorem programCounterTable : Obligations.ProgramCounterTable := by
  intro i s t hs h
  obtain ⟨k, rfl⟩ | ⟨hnf, hc, -⟩ := exec_next_of_running hs h
  · simp
  · rw [if_neg hnf]
    cases hc with
    | jzZero _ top | jnzNonzero _ top => exact if_congr (by simp [top]) rfl rfl
    | jzNonzero _ top | jnzZero _ top => simp [top]
    | _ => simp

/-- Settles O27: of the completions PRINT alone writes the log. -/
theorem outputFrame : Obligations.OutputFrame := by
  intro i s t h
  obtain ⟨k, rfl⟩ | hc := exec_next_completes h
  · exact .inl rfl
  · cases hc with
    | print _ top => exact .inr ⟨rfl, _, top, rfl⟩
    | _ => exact .inl rfl

end Sys2Proof.Machine
end

