-- ==== Sys2Proof/Proofs/StepShape.lean ====
section
/-!
What fetching says about the instruction fetched, and how one step of a Running core leaves the program counter (43_jumps.md
R131, R136) and the dispatch FSM (40_fetch_decode_dispatch.md R98).
-/

namespace Sys2Proof.Machine

/-- An instruction that the decoder reads lies whole in the bytes it is read from. -/
theorem decode_length_le {bs : List Byte} {i : Instr} {n : Nat} (h : decode bs = .instr i n) : i.length ≤ bs.length := by
  cases bs with
  | nil => cases h
  | cons op rest =>
    obtain ⟨-, -, hwidth, -, -⟩ := decodeOpcode_instr h
    rw [List.length_cons, Instr.length]
    omega

/-- A fetched instruction ends inside the instruction space (R93). -/
theorem pc_add_length_le_of_fetch_ok {s : State} {i : Instr} (h : fetch s = .ok i) :
    s.pc + i.length ≤ s.cfg.maxInsts := by
  unfold fetch at h
  split at h
  · obtain rfl := Except.ok.inj h
    have hlen := decode_length_le ‹s.decodeAt s.pc = _›
    rw [State.bytesFrom_length, Instr.length] at hlen
    rw [Instr.length]
    omega
  · cases h
  · cases h

/-- A jump taken goes to a valid target (R131). -/
theorem State.takenTarget_lt {s : State} {p : Nat} (h : s.takenTarget = some p) : p < s.cfg.maxInsts := by
  unfold State.takenTarget at h
  split at h
  case h_4 => cases h
  all_goals
    split at h
    · obtain rfl := Option.some.inj h
      tauto
    · cases h

/-- The program counter after a completion: the target of the jump taken, or the address after the instruction. -/
theorem Completes.pc_eq {i : Instr} {s t : State} (hf : fetch s = .ok i) (h : Completes s i t) :
    t.pc = s.takenTarget.getD (s.pc + i.length) := by
  cases h with
  | @jmp a =>
    by_cases ha : a < s.cfg.maxInsts <;> simp [State.takenTarget, hf, ha, Instr.length, Instr.operandWidth]
  | @jzZero a hsp top | @jnzNonzero a hsp top =>
    by_cases ha : a < s.cfg.maxInsts <;> simp [State.takenTarget, hf, hsp, top, ha, Instr.length, Instr.operandWidth]
  | jzNonzero _ top | jnzZero _ top => simp [State.takenTarget, hf, top, Instr.length, Instr.operandWidth]
  | _ => simp [State.takenTarget, hf, Instr.length, Instr.operandWidth]

/-- Settles O42: `pc` after a completion is the target of the jump taken, if there is one, else the next address. -/
theorem onlyTakenJumpsDoNotAdvance : Obligations.OnlyTakenJumpsDoNotAdvance := by
  intro s t hs h hnf
  obtain ⟨hns, -⟩ | ⟨-, k, -, rfl⟩ | ⟨-, i, hf, he⟩ := step_next h
  · exact absurd hs hns
  · exact absurd rfl hnf
  obtain ⟨k, rfl⟩ | ⟨-, hc, -⟩ := exec_next_of_running hs he
  · exact absurd rfl hnf
  have hpc := hc.pc_eq hf
  cases htaken : s.takenTarget with
  | some p =>
    rw [htaken, Option.getD_some] at hpc
    exact .inl ⟨p, rfl, hpc, State.takenTarget_lt htaken⟩
  | none =>
    rw [htaken, Option.getD_none] at hpc
    exact .inr ⟨rfl, i, hf, hpc, Nat.le_add_right 1 _⟩

/-- Settles O33: STOP never faults, and no other completion writes the status. -/
theorem onlyStopHalts : Obligations.OnlyStopHalts := by
  intro s t hs h
  obtain ⟨hns, -⟩ | ⟨-, k, hf, rfl⟩ | ⟨-, i, hf, he⟩ := step_next h
  · exact absurd hs hns
  · simp [hf]
  by_cases hi : i = .stop
  · subst hi
    obtain rfl := execStop_next he
    simp [hf]
  · obtain ⟨k, rfl⟩ | hframe := exec_next_frame he
    · simp [hf, hi]
    · simp [hframe.status, hf, hi, hs]

end Sys2Proof.Machine
end

