-- ==== Sys2Proof/Proofs/Invariant.lean ====
section
/-!
The invariant of the spec's states (10_state.md R39): it holds after reset and load, every instruction run in it answers a
next state, and every step keeps it.
-/

namespace Sys2Proof.Machine

/-! ### Reset and load -/

theorem resetOf_inv {c : Config} (hc : c.wf) : (State.resetOf c).Inv where
  cfg_wf := hc
  stack_length := List.length_replicate
  x_length := List.length_replicate
  imem_wf := rfl
  imem_below := rfl
  sp_le := Nat.zero_le _
  pc_le := Nat.zero_le _
  faulted_iff := by simp [State.resetOf]
  faultPc_eq := rfl

/-- Settles O35, by the invariant of a reset state. -/
theorem invariantHoldsAtReset : Obligations.InvariantHoldsAtReset :=
  ⟨resetOf_inv (by decide), fun _ => resetOf_inv⟩

/-- Fault entry keeps the invariant, from any status (R182). -/
theorem State.Inv.faultEntry {s : State} (h : s.Inv) (k : FaultKind) : (s.faultEntry k).Inv :=
  { h with faulted_iff := by simp, faultPc_eq := by simp }

/-- Writing bytes that fit into the instruction buffer keeps the invariant. -/
theorem State.Inv.writeBytes {s : State} (h : s.Inv) {bs : List Byte} (hbs : bs.length ≤ s.cfg.maxInsts) :
    { s with imem := Memory.writeBytes s.imem 0 bs }.Inv :=
  { h with
    imem_wf := Memory.writeBytes_wf bs 0 h.imem_wf
    imem_below := Memory.writeBytes_below bs 0 (by simpa using hbs) h.imem_below }

/-- Loading into a core whose `pc` is 0 keeps the invariant; the strict failure is the fault entry at position 0 (R205). -/
theorem load_inv {s : State} (h : s.Inv) (hpc : s.pc = 0) (bytes : List Byte) : (load bytes s).Inv := by
  by_cases hfit : bytes.length ≤ s.cfg.maxInsts
  · rw [load_of_le hfit]
    exact h.writeBytes hfit
  · have hlong : s.cfg.maxInsts < bytes.length := Nat.not_le.1 hfit
    cases hmode : s.cfg.loadMode with
    | strict =>
      rw [load_of_lt_strict hlong hmode, ← hpc]
      exact h.faultEntry .programTooLarge
    | permissive =>
      rw [load_of_lt_permissive hlong hmode]
      exact h.writeBytes (by simp)

/-- Settles O36: boot loads into a reset core. -/
theorem bootGivesAStateOfTheSpec : Obligations.BootGivesAStateOfTheSpec :=
  fun _ bytes hc => load_inv (resetOf_inv hc) rfl bytes

/-! ### Every step keeps it -/

theorem State.Inv.cause_eq_none {s : State} (h : s.Inv) (hnf : s.status ≠ .faulted) : s.cause = none :=
  Decidable.not_not.1 (mt h.faulted_iff.2 hnf)

theorem State.Inv.faultPc_eq_zero {s : State} (h : s.Inv) (hnf : s.status ≠ .faulted) : s.faultPc = 0 :=
  h.faultPc_eq.trans (if_neg hnf)

/-- A completion leaves `sp` at most at the capacity: what pushes has room (R173). -/
theorem Completes.sp_le {i : Instr} {s t : State} (h : Completes s i t) (hsp : s.sp ≤ s.cfg.stackCap) :
    t.sp ≤ s.cfg.stackCap := by
  cases h with
  | push room | load _ room => exact room
  | nop | loadOutOfRange | jmp | stop => exact hsp
  | _ => exact (Nat.sub_le _ 1).trans hsp

/-- A completion of a fetched instruction leaves `pc` inside the instruction space or right behind it. -/
theorem Completes.pc_le {i : Instr} {s t : State} (hf : fetch s = .ok i) (h : Completes s i t) :
    t.pc ≤ s.cfg.maxInsts := by
  rw [h.pc_eq hf]
  cases htaken : s.takenTarget with
  | some p => exact (State.takenTarget_lt htaken).le
  | none => exact pc_add_length_le_of_fetch_ok hf

/-- A completion of the fetched instruction keeps the invariant. -/
theorem State.Inv.completes {i : Instr} {s t : State} (h : s.Inv) (hs : s.status = .running) (hf : fetch s = .ok i)
    (hc : Completes s i t) (hframe : CompletionFrame i s t) : t.Inv := by
  have hnf : t.status ≠ .faulted := hframe.status_ne_faulted hs
  have hsnf : s.status ≠ .faulted := by simp [hs]
  exact
    { cfg_wf := hframe.cfg ▸ h.cfg_wf
      stack_length := by rw [hframe.cfg, hc.stack_length, h.stack_length]
      x_length := by rw [hframe.cfg, hc.x_length, h.x_length]
      imem_wf := hframe.imem ▸ h.imem_wf
      imem_below := by rw [hframe.cfg, hframe.imem]; exact h.imem_below
      sp_le := hframe.cfg ▸ hc.sp_le h.sp_le
      pc_le := hframe.cfg ▸ hc.pc_le hf
      faulted_iff := by simp [hnf, hframe.cause, h.cause_eq_none hsnf]
      faultPc_eq := by rw [if_neg hnf, hframe.faultPc, h.faultPc_eq_zero hsnf] }

/-- Settles O37: a step answers the same state, a fault entry or a completion of the fetched instruction. -/
theorem stepKeepsTheInvariant : Obligations.StepKeepsTheInvariant := by
  intro s t h hstep
  obtain ⟨-, rfl⟩ | ⟨-, k, -, rfl⟩ | ⟨hs, i, hf, he⟩ := step_next hstep
  · exact h
  · exact h.faultEntry k
  · obtain ⟨k, rfl⟩ | ⟨-, hc, hframe⟩ := exec_next_of_running hs he
    · exact h.faultEntry k
    · exact h.completes hs hf hc hframe

/-! ### Every step answers a next state -/

/-- The answer is a next state, and not a stop of the model's own. -/
def Answers (r : Result) : Prop := ∃ t, r = .next t

@[simp] theorem answers_next (t : State) : Answers (.next t) := ⟨t, rfl⟩

@[simp] theorem answers_raise (k : FaultKind) (s : State) : Answers (raise k s) := ⟨_, rfl⟩

/-- A live slot holds a word. -/
theorem State.Inv.slot {s : State} (h : s.Inv) {j : Nat} (hj : j < s.sp) : ∃ v, s.stack[j]? = some v :=
  ⟨_, List.getElem?_eq_getElem (by have := h.sp_le; have := h.stackCap_lt_length; omega)⟩

/-- A register in range holds a word. -/
theorem State.Inv.register {s : State} (h : s.Inv) {r : Nat} (hr : r < s.cfg.nregs) : ∃ v, s.x[r]? = some v :=
  ⟨_, List.getElem?_eq_getElem (by rw [h.x_length]; exact hr)⟩

theorem State.Inv.withTop_answers {s : State} (h : s.Inv) {f : Word → Result} (hf : ∀ v, Answers (f v)) :
    Answers (withTop s f) := by
  by_cases hsp : s.sp = 0
  · simp [withTop, hsp]
  · obtain ⟨v, hv⟩ := h.slot (show s.sp - 1 < s.sp by omega)
    rw [withTop_of_top hsp hv]
    exact hf v

theorem State.Inv.withTwo_answers {s : State} (h : s.Inv) {f : Word → Word → Result} (hf : ∀ a b, Answers (f a b)) :
    Answers (withTwo s f) := by
  by_cases hsp : s.sp < 2
  · simp [withTwo, hsp]
  · obtain ⟨a, ha⟩ := h.slot (show s.sp - 2 < s.sp by omega)
    obtain ⟨b, hb⟩ := h.slot (show s.sp - 1 < s.sp by omega)
    rw [withTwo_of_two (by omega) ha hb]
    exact hf a b

theorem State.Inv.withRoom_answers {s : State} (h : s.Inv) {k : Result} (hk : Answers k) : Answers (withRoom s k) := by
  by_cases hsp : s.cfg.stackCap ≤ s.sp
  · simp [withRoom, hsp]
  · have hroom : s.sp < s.cfg.stackCap := Nat.not_le.1 hsp
    rw [withRoom_of_room hroom (hroom.trans h.stackCap_lt_length)]
    exact hk

theorem State.Inv.execLoad_answers {s : State} (h : s.Inv) (r : Nat) : Answers (execLoad r s) := by
  unfold execLoad
  split
  · next hr =>
    obtain ⟨v, hv⟩ := h.register (State.regInRange_iff.1 hr)
    exact h.withRoom_answers (by simp [withReg, hv])
  · exact answers_next _

theorem State.Inv.execStore_answers {s : State} (h : s.Inv) (r : Nat) : Answers (execStore r s) := by
  refine h.withTop_answers fun v => ?_
  split
  · next hr =>
    have hheld : r < s.x.length := by rw [h.x_length]; exact State.regInRange_iff.1 hr
    simp [writeReg, hheld]
  · exact answers_next _

/-- In a state of the spec every instruction answers a next state (log 3). -/
theorem State.Inv.exec_answers {s : State} (h : s.Inv) (i : Instr) : Answers (exec i s) := by
  cases i with
  | nop | jmp _ | stop => exact answers_next _
  | push n => exact h.withRoom_answers (answers_next _)
  | pop => by_cases hsp : s.sp = 0 <;> simp [exec, execPop, hsp]
  | load r => exact h.execLoad_answers r
  | store r => exact h.execStore_answers r
  | jz _ | jnz _ | print => exact h.withTop_answers fun _ => answers_next _
  | add | sub | mul => exact h.withTwo_answers fun _ _ => answers_next _
  | div =>
    refine h.withTwo_answers fun a b => ?_
    by_cases hb : b = 0#32 <;> simp [hb]

theorem State.Inv.step_answers {s : State} (h : s.Inv) : Answers (step s) := by
  cases hs : s.status with
  | running =>
    cases hf : fetch s with
    | ok i => rw [step_of_fetch_ok hs hf]; exact h.exec_answers i
    | error k => rw [step_of_fetch_error hs hf]; exact answers_next _
  | halted | faulted => simp [step, hs]

/-- Settles O38, by induction on the number of steps: a state of the spec has a step, which ends in a state of the spec. -/
theorem runsNeverLeaveTheSpec : Obligations.RunsNeverLeaveTheSpec := by
  intro n
  induction n with
  | zero => exact fun s h => ⟨s, rfl, h⟩
  | succ n ih =>
    intro s h
    obtain ⟨u, hu⟩ := h.step_answers
    obtain ⟨t, hrun, ht⟩ := ih u (stepKeepsTheInvariant s u h hu)
    exact ⟨t, runFor_succ.2 ⟨u, hu, hrun⟩, ht⟩

end Sys2Proof.Machine
end

