-- ==== Sys2Proof/Proofs/DeadSlots.lean ====
section
/-!
Stack slots at or above `sp` are not observable (10_state.md R24): states that differ in them only stay so under every update,
every operand check, every instruction and every step.
-/

namespace Sys2Proof.Machine

/-- One slot of two stacks written with one word: they agree there, and elsewhere where they did. -/
theorem getElem?_set_congr {p q : List Word} (hlen : q.length = p.length) {i j : Nat} (v : Word)
    (hj : j ≠ i → q[j]? = p[j]?) : (q.set i v)[j]? = (p.set i v)[j]? := by
  by_cases hij : i = j
  · subst hij
    simp [List.getElem?_set, hlen]
  · rw [List.getElem?_set_ne hij, List.getElem?_set_ne hij, hj (Ne.symm hij)]

namespace State.SameLive

variable {s t : State}

/-! ### What the two states have in common -/

theorem cfg (h : s.SameLive t) : t.cfg = s.cfg := by rw [h.rest]
theorem sp (h : s.SameLive t) : t.sp = s.sp := by rw [h.rest]
theorem x (h : s.SameLive t) : t.x = s.x := by rw [h.rest]
theorem imem (h : s.SameLive t) : t.imem = s.imem := by rw [h.rest]
theorem pc (h : s.SameLive t) : t.pc = s.pc := by rw [h.rest]
theorem status (h : s.SameLive t) : t.status = s.status := by rw [h.rest]

theorem fetch_eq (h : s.SameLive t) : fetch t = fetch s := by
  have hbytes : t.bytesFrom t.pc maxInstrBytes = s.bytesFrom s.pc maxInstrBytes := by
    rw [h.pc]
    exact State.bytesFrom_congr (by rw [h.cfg]) _ _ fun _ _ _ => by rw [h.imem]
  simp only [fetch, State.decodeAt, hbytes]

/-! ### Every update keeps it -/

/-- An update that writes no stack slot, does not raise `sp` and does not look at the stack. -/
theorem update {f : State → State} (h : s.SameLive t)
    (hf : ∀ (u : State) (st : List Word), f { u with stack := st } = { f u with stack := st })
    (hstack : ∀ u : State, (f u).stack = u.stack) (hsp : ∀ u : State, (f u).sp ≤ u.sp) : (f s).SameLive (f t) where
  rest := by
    conv_lhs => rw [h.rest, hf]
    rw [hstack]
  length := by rw [hstack, hstack, h.length]
  live j hj := by rw [hstack, hstack, h.live j (hj.trans_le (hsp s))]

theorem faultEntry (h : s.SameLive t) (k : FaultKind) : (s.faultEntry k).SameLive (t.faultEntry k) :=
  h.update (fun _ _ => rfl) (fun _ => rfl) fun _ => le_rfl

theorem advance (h : s.SameLive t) (n : Nat) : (s.advance n).SameLive (t.advance n) :=
  h.update (fun _ _ => rfl) (fun _ => rfl) fun _ => le_rfl

theorem jumpTo (h : s.SameLive t) (a : Nat) : (s.jumpTo a).SameLive (t.jumpTo a) :=
  h.update (fun _ _ => rfl) (fun _ => rfl) fun _ => le_rfl

theorem dropped (h : s.SameLive t) : s.dropped.SameLive t.dropped :=
  h.update (fun _ _ => rfl) (fun _ => rfl) fun _ => Nat.sub_le _ _

theorem setReg (h : s.SameLive t) (r : Nat) (v : Word) : (s.setReg r v).SameLive (t.setReg r v) :=
  h.update (fun _ _ => rfl) (fun _ => rfl) fun _ => le_rfl

theorem emit (h : s.SameLive t) (v : Word) : (s.emit v).SameLive (t.emit v) :=
  h.update (fun _ _ => rfl) (fun _ => rfl) fun _ => le_rfl

theorem halt (h : s.SameLive t) : s.halt.SameLive t.halt :=
  h.update (fun _ _ => rfl) (fun _ => rfl) fun _ => le_rfl

theorem pushed (h : s.SameLive t) (v : Word) : (s.pushed v).SameLive (t.pushed v) where
  rest := by
    conv_lhs => rw [h.rest]
    simp [State.pushed, h.sp]
  length := by simp [h.length]
  live j hj := by
    simp only [State.pushed_stack, State.pushed_sp, h.sp] at hj ⊢
    exact getElem?_set_congr h.length v fun hne => h.live j (by omega)

theorem result (h : s.SameLive t) (v : Word) : (s.result v).SameLive (t.result v) where
  rest := by
    conv_lhs => rw [h.rest]
    simp [State.result, State.replaceTwo, State.advance, h.sp]
  length := by simp [h.length]
  live j hj := by
    simp only [State.result_stack, State.result_sp, h.sp] at hj ⊢
    exact getElem?_set_congr h.length v fun _ => h.live j (by omega)

end State.SameLive

/-! ### Every operand check, instruction and step keeps it -/

/-- Where `p` answers a next state, `q` answers one that differs from it in dead slots only. -/
def SameLiveAnswer (p q : Result) : Prop := ∀ s', p = .next s' → ∃ t', q = .next t' ∧ s'.SameLive t'

namespace State.SameLive

variable {s t : State}

theorem answer (h : s.SameLive t) : SameLiveAnswer (.next s) (.next t) := by
  intro s' hs'
  obtain rfl := Host.Outcome.next.inj hs'
  exact ⟨t, rfl, h⟩

theorem raise_answer (h : s.SameLive t) (k : FaultKind) : SameLiveAnswer (raise k s) (raise k t) :=
  (h.faultEntry k).answer

theorem withTop_answer (h : s.SameLive t) {f g : Word → Result} (hfg : ∀ v, SameLiveAnswer (f v) (g v)) :
    SameLiveAnswer (withTop s f) (withTop t g) := by
  intro s' hs'
  obtain ⟨h0, rfl⟩ | ⟨hsp, v, hv, hf⟩ := withTop_next hs'
  · exact ⟨_, if_pos (h.sp.trans h0), h.faultEntry _⟩
  · rw [withTop_of_top (s := t) (by rw [h.sp]; exact hsp) (by rw [h.sp, h.live _ (by omega), hv])]
    exact hfg v s' hf

theorem withTwo_answer (h : s.SameLive t) {f g : Word → Word → Result} (hfg : ∀ a b, SameLiveAnswer (f a b) (g a b)) :
    SameLiveAnswer (withTwo s f) (withTwo t g) := by
  intro s' hs'
  obtain ⟨h2, rfl⟩ | ⟨h2, a, b, ha, hb, hf⟩ := withTwo_next hs'
  · exact ⟨_, if_pos (h.sp.trans_lt h2), h.faultEntry _⟩
  · rw [withTwo_of_two (s := t) (by rw [h.sp]; exact h2) (by rw [h.sp, h.live _ (by omega), ha])
      (by rw [h.sp, h.live _ (by omega), hb])]
    exact hfg a b s' hf

theorem withRoom_answer (h : s.SameLive t) {p q : Result} (hpq : SameLiveAnswer p q) :
    SameLiveAnswer (withRoom s p) (withRoom t q) := by
  intro s' hs'
  obtain ⟨hfull, rfl⟩ | ⟨hroom, hslot, hp⟩ := withRoom_next hs'
  · exact ⟨_, if_pos (by rw [h.cfg, h.sp]; exact hfull), h.faultEntry _⟩
  · rw [withRoom_of_room (s := t) (by rw [h.cfg, h.sp]; exact hroom) (by rw [h.sp, h.length]; exact hslot)]
    exact hpq s' hp

theorem withReg_answer (h : s.SameLive t) (r : Nat) {f g : Word → Result} (hfg : ∀ v, SameLiveAnswer (f v) (g v)) :
    SameLiveAnswer (withReg s r f) (withReg t r g) := by
  intro s' hs'
  obtain ⟨v, hv, hf⟩ := withReg_next hs'
  obtain ⟨t', ht', hlive⟩ := hfg v s' hf
  exact ⟨t', by simp [withReg, h.x, hv, ht'], hlive⟩

theorem writeReg_answer (h : s.SameLive t) (r : Nat) (v : Word) : SameLiveAnswer (writeReg r v s) (writeReg r v t) := by
  intro s' hs'
  obtain ⟨hr, rfl⟩ := writeReg_next hs'
  exact ⟨_, if_pos (by rw [h.x]; exact hr), h.setReg r v⟩

theorem regInRange (h : s.SameLive t) (r : Nat) : t.regInRange r = s.regInRange r := by
  rw [State.regInRange, State.regInRange, h.cfg]

theorem execPop_answer (h : s.SameLive t) : SameLiveAnswer (execPop s) (execPop t) := by
  unfold execPop
  rw [h.sp]
  split
  · exact h.raise_answer _
  · exact (h.dropped.advance 1).answer

theorem execLoad_answer (h : s.SameLive t) (r : Nat) : SameLiveAnswer (execLoad r s) (execLoad r t) := by
  unfold execLoad
  rw [h.regInRange]
  split
  · exact h.withRoom_answer (h.withReg_answer r fun v => ((h.pushed v).advance 2).answer)
  · exact (h.advance 2).answer

theorem execStore_answer (h : s.SameLive t) (r : Nat) : SameLiveAnswer (execStore r s) (execStore r t) := by
  refine h.withTop_answer fun v => ?_
  rw [h.regInRange]
  split
  · exact (h.dropped.advance 2).writeReg_answer r v
  · exact (h.dropped.advance 2).answer

theorem exec_answer (h : s.SameLive t) (i : Instr) : SameLiveAnswer (exec i s) (exec i t) := by
  cases i with
  | nop => exact (h.advance 1).answer
  | push n => exact h.withRoom_answer ((h.pushed n).advance 5).answer
  | pop => exact h.execPop_answer
  | load r => exact h.execLoad_answer r
  | store r => exact h.execStore_answer r
  | jmp a => exact (h.jumpTo a).answer
  | jz a =>
    refine h.withTop_answer fun v => ?_
    cases isZero v
    · exact (h.dropped.advance 3).answer
    · exact (h.dropped.jumpTo a).answer
  | jnz a =>
    refine h.withTop_answer fun v => ?_
    cases isZero v
    · exact (h.dropped.jumpTo a).answer
    · exact (h.dropped.advance 3).answer
  | add | sub | mul => exact h.withTwo_answer fun _ _ => (h.result _).answer
  | div =>
    refine h.withTwo_answer fun a b => ?_
    split
    · exact h.raise_answer _
    · exact (h.result _).answer
  | print => exact h.withTop_answer fun v => ((h.dropped.emit v).advance 1).answer
  | stop => exact (h.advance 1).halt.answer

theorem step_answer (h : s.SameLive t) : SameLiveAnswer (step s) (step t) := by
  unfold step
  rw [h.status, h.fetch_eq]
  split
  · split
    · exact h.exec_answer _
    · exact h.raise_answer _
  · exact h.answer
  · exact h.answer

end State.SameLive

/-- Settles O41, by induction on the number of steps: the relation is kept by one step. -/
theorem deadSlotsAreUnobservable : Obligations.DeadSlotsAreUnobservable := by
  intro n
  induction n with
  | zero =>
    intro s t s' h hrun
    obtain rfl := Host.Outcome.next.inj hrun
    exact ⟨t, rfl, h⟩
  | succ n ih =>
    intro s t s' h hrun
    obtain ⟨u, hu, hrest⟩ := runFor_succ.1 hrun
    obtain ⟨u', hu', hlive⟩ := h.step_answer u hu
    obtain ⟨t', hrun', hlive'⟩ := ih u u' s' hlive hrest
    exact ⟨t', runFor_succ.2 ⟨u', hu', hrun'⟩, hlive'⟩

end Sys2Proof.Machine
end

