-- ==== Sys2Proof/Proofs/ResetTable.lean ====
section
/-!
The state at the start of a run (10_state.md R41, 70_reset_and_hazards.md R204, R205), the hardware widths (R23, R27, R35) and
the numeric codes of `status` and `cause` (R34, 60_exceptions.md R171).
-/

namespace Sys2Proof.Machine

/-! ### Boot -/

/-- Boot with a program that fits: the reset state with the program in its buffer. -/
theorem boot_of_le {c : Config} {bytes : List Byte} (h : bytes.length ≤ c.maxInsts) :
    boot c bytes = { State.resetOf c with imem := Memory.writeBytes [] 0 bytes } :=
  load_of_le (s := State.resetOf c) h

/-- A program written into an empty buffer stands at address 0 and up, with the reset content behind it (R204). -/
theorem read_writeBytes_nil (bytes : List Byte) (a : Nat) :
    Memory.read (Memory.writeBytes [] 0 bytes) a = bytes.getD a 0#8 := by
  rw [Memory.read_writeBytes bytes 0 rfl]
  by_cases ha : a < bytes.length <;> simp [ha]

/-- Settles O51: a reset core with the program written from address 0, or the strict loader's fault. -/
theorem bootLeavesTheResetTable : Obligations.BootLeavesTheResetTable := by
  intro c bytes
  refine ⟨fun hfit => ?_, fun hlong hmode => ?_⟩
  · rw [boot_of_le hfit]
    refine ⟨rfl, fun i hi => List.getElem?_replicate_of_lt hi, rfl, fun i hi => List.getElem?_replicate_of_lt hi,
      fun a b hb => ?_, fun a ha => ?_, rfl, rfl, rfl, rfl, rfl⟩
    · simp [read_writeBytes_nil, hb]
    · simp [read_writeBytes_nil, ha]
  · have hboot := load_of_lt_strict (s := State.resetOf c) hlong hmode
    refine ⟨hboot, fun a => ?_⟩
    rw [boot, hboot]
    rfl

/-! ### Widths and codes -/

theorem lt_two_pow_bitsFor {n m : Nat} (h : m ≤ n) : m < 2 ^ Config.bitsFor n :=
  h.trans_lt Nat.lt_log2_self

/-- No width of at least 1 that holds `n` is smaller than `bitsFor n`. -/
theorem bitsFor_le {n w : Nat} (hw : 1 ≤ w) (h : n < 2 ^ w) : Config.bitsFor n ≤ w := by
  by_cases hn : n = 0
  · subst hn
    exact hw
  · exact (Nat.log2_lt hn).2 h

/-- In a state of the spec `fault_pc` is 0 or `pc` (R35). -/
theorem State.Inv.faultPc_le {s : State} (h : s.Inv) : s.faultPc ≤ s.cfg.maxInsts := by
  rw [h.faultPc_eq]
  split
  · exact h.pc_le
  · exact Nat.zero_le _

/-- Settles O56: `bitsFor` holds every value up to its argument and is least, and 65536 is 2^16. -/
theorem registerWidthsAreLeast : Obligations.RegisterWidthsAreLeast := by
  refine ⟨fun s h => ?_, fun c w hw => ⟨bitsFor_le hw, bitsFor_le hw⟩, fun c hc => ?_⟩
  · exact ⟨lt_two_pow_bitsFor h.sp_le, lt_two_pow_bitsFor h.pc_le, lt_two_pow_bitsFor h.faultPc_le⟩
  · rw [Config.pcWidth, hc, Config.bitsFor, show 65536 = 2 ^ 16 from rfl, Nat.log2_two_pow]

/-- Settles O55, by the tables of the two codes. -/
theorem statusAndCauseCodes : Obligations.StatusAndCauseCodes := by
  refine ⟨⟨rfl, rfl, rfl⟩, fun s => ?_, rfl, rfl, rfl, rfl, rfl, rfl, rfl⟩
  cases s <;> decide

end Sys2Proof.Machine
end

