-- ==== Sys2Proof/Proofs/CodeMemory.lean ====
section
/-!
The instruction buffer and the register file as the program sees them (20_memory.md): no instruction writes the buffer (R51,
R63), a register keeps its word between STOREs of it (R60), and a buffer that holds only zeros from `pc` on runs as NOPs to its
end (R58, 40_fetch_decode_dispatch.md R102).
-/

namespace Sys2Proof.Machine

/-- Settles O22: a fault entry and the frame of a completion both keep the buffer and the parameters. -/
theorem noInstructionWritesCode : Obligations.NoInstructionWritesCode := by
  intro i s t h
  obtain ⟨k, rfl⟩ | hframe := exec_next_frame h
  · exact ⟨rfl, fun _ => rfl⟩
  · exact ⟨hframe.cfg, fun a => by rw [hframe.imem]⟩

/-! ### A register between STOREs of it -/

/-- A step that fetches no STORE of register `r` keeps its word. -/
theorem step_register_of_no_store {r : Nat} {s t : State} (h : step s = .next t)
    (hno : s.status = .running → fetch s ≠ .ok (.store r)) : t.x[r]? = s.x[r]? := by
  obtain ⟨-, rfl⟩ | ⟨-, k, -, rfl⟩ | ⟨hs, i, hf, he⟩ := step_next h
  · rfl
  · rfl
  · obtain ⟨k, rfl⟩ | hframe := exec_next_frame he
    · rfl
    · exact hframe.x r fun hi => hno hs (hi ▸ hf)

/-- Settles O40, by induction on the number of steps: each step of the run keeps the register. -/
theorem storedRegisterStaysUntilNextStore : Obligations.StoredRegisterStaysUntilNextStore := by
  intro n r
  induction n with
  | zero =>
    intro s t hrun _
    obtain rfl := Host.Outcome.next.inj hrun
    rfl
  | succ n ih =>
    intro s t hrun hno
    obtain ⟨u, hu, hrest⟩ := runFor_succ.1 hrun
    have htail : t.x[r]? = u.x[r]? :=
      ih u t hrest fun k v hk hv => hno (k + 1) v (by omega) (runFor_succ.2 ⟨u, hu, hv⟩)
    exact htail.trans (step_register_of_no_store hu (hno 0 s n.succ_pos rfl))

/-! ### Zero padding -/

/-- An opcode fetch at or beyond the end of the instruction space is truncated (R91). -/
theorem fetch_of_maxInsts_le_pc {s : State} (hpc : s.cfg.maxInsts ≤ s.pc) : fetch s = .error .truncatedProgram := by
  have hbytes : s.bytesFrom s.pc maxInstrBytes = [] := if_neg (Nat.not_lt.2 hpc)
  simp [fetch, State.decodeAt, hbytes]

/-- A zero byte inside the instruction space is fetched as NOP (R76). -/
theorem fetch_of_zero_byte {s : State} (hpc : s.pc < s.cfg.maxInsts) (hzero : Memory.read s.imem s.pc = 0#8) :
    fetch s = .ok .nop := by
  have hbytes : s.bytesFrom s.pc maxInstrBytes = 0#8 :: s.bytesFrom (s.pc + 1) 4 := by
    rw [maxInstrBytes, State.bytesFrom_succ, if_pos hpc, hzero]
  rw [fetch, State.decodeAt, hbytes]
  rfl

/-- A Running core steps over as many zero bytes as stand in the instruction space at `pc`, one each (R58). -/
theorem runFor_zero_bytes (n : Nat) : ∀ {s : State}, s.status = .running → s.pc + n ≤ s.cfg.maxInsts →
    (∀ a, s.pc ≤ a → a < s.pc + n → Memory.read s.imem a = 0#8) → runFor n s = .next (s.advance n) := by
  induction n with
  | zero => exact fun _ _ _ => rfl
  | succ n ih =>
    intro s hs hroom hzero
    have hstep : step s = .next (s.advance 1) :=
      step_of_fetch_ok hs (fetch_of_zero_byte (by omega) (hzero s.pc le_rfl (by omega)))
    have hrest : runFor n (s.advance 1) = .next ((s.advance 1).advance n) :=
      ih hs (by simp; omega) fun a hlo hhi => hzero a (by simp at hlo; omega) (by simp at hhi; omega)
    rw [runFor_succ.2 ⟨_, hstep, hrest⟩]
    simp [State.advance, Nat.add_assoc, Nat.add_comm 1]

/-- Settles O44: NOPs up to the end of the buffer, and one fetch there. -/
theorem zeroPaddingRunsToTheEnd : Obligations.ZeroPaddingRunsToTheEnd := by
  intro s hinv hs hzero
  have hle := hinv.pc_le
  have hend : s.pc + (s.cfg.maxInsts - s.pc) = s.cfg.maxInsts := by omega
  have hnops := runFor_zero_bytes (s.cfg.maxInsts - s.pc) hs hend.le fun a hlo hhi => hzero a hlo (by omega)
  have hfault : step (s.advance (s.cfg.maxInsts - s.pc)) = .next (State.faultEntry .truncatedProgram _) :=
    step_of_fetch_error hs (fetch_of_maxInsts_le_pc hend.ge)
  rw [runFor_add _ 1 hnops, runFor_succ.2 ⟨_, hfault, rfl⟩]
  simp [State.faultEntry, State.advance, hend]

end Sys2Proof.Machine
end

