-- ==== Sys2Proof/Proofs/Encoding.lean ====
section
/-!
The encoding of instructions (30_encoding.md): decoder and encoder invert each other, on one instruction and on whole streams
(R71 to R76, R82), words of the table decode to their instructions, and opcode bytes without a row are invalid (R79).
-/

namespace Sys2Proof

/-! ### Decode of encode -/

/-- The operand step reads back an operand that fits its field, whatever bytes follow (R93, R94). -/
theorem decodeOperand_leBytes_append {n v : Nat} (hv : v < 256 ^ n) (rest : List Byte) (make : Nat → Instr) :
    decodeOperand n (leBytes n v ++ rest) make = .instr (make v) (1 + n) := by
  refine decodeOperand_instr.2 ⟨by simp, ?_, rfl⟩
  rw [List.take_left' (leBytes_length n v), leNat_leBytes, Nat.mod_eq_of_lt hv]

/-- A well-formed instruction's operand fits its operand field (R72 to R75). -/
theorem rawOperand_lt_of_wellFormed {i : Instr} (hi : i.WellFormed = true) : i.rawOperand < 256 ^ i.operandWidth := by
  cases i with
  | push n => exact n.isLt
  | load _ | store _ | jmp _ | jz _ | jnz _ => exact of_decide_eq_true hi
  | nop | pop | add | sub | mul | div | print | stop => exact Nat.one_pos

theorem decode_encode_append {i : Instr} (hi : i.WellFormed = true) (rest : List Byte) :
    decode (encode i ++ rest) = .instr i i.length := by
  have hfits := rawOperand_lt_of_wellFormed hi
  cases i with
  | push n =>
    have hpush := decodeOperand_leBytes_append hfits rest fun u => .push (BitVec.ofNat 32 u)
    rwa [Instr.rawOperand, BitVec.ofNat_toNat, BitVec.setWidth_eq] at hpush
  | load _ | store _ | jmp _ | jz _ | jnz _ => exact decodeOperand_leBytes_append hfits rest _
  | nop | pop | add | sub | mul | div | print | stop => rfl

/-- Settles O3, by the operand step on the bytes of an operand that fits. -/
theorem decodeOfEncodeIsTheInstruction : Obligations.DecodeOfEncodeIsTheInstruction :=
  fun _ rest hi => decode_encode_append hi rest

/-! ### Encode of decode -/

/-- The bytes of the operand that is read from `n` bytes are those bytes. -/
theorem leBytes_leNat_take {n : Nat} {bs : List Byte} (h : n ≤ bs.length) : leBytes n (leNat (bs.take n)) = bs.take n := by
  have hbytes := leBytes_leNat (bs.take n)
  rwa [List.length_take, Nat.min_eq_left h] at hbytes

theorem encode_of_decode {bs : List Byte} {i : Instr} {n : Nat} (h : decode bs = .instr i n) : encode i = bs.take n := by
  cases bs with
  | nil => cases h
  | cons op rest =>
    obtain ⟨hop, hn, hwidth, hraw, -⟩ := decodeOpcode_instr h
    rw [encode, hraw, leBytes_leNat_take hwidth, ← hop, hn, Instr.length, Nat.add_comm, List.take_succ_cons]

/-- The decoder reads well-formed instructions and reports their length. -/
theorem wellFormed_and_length_of_decode {bs : List Byte} {i : Instr} {n : Nat} (h : decode bs = .instr i n) :
    i.WellFormed = true ∧ n = i.length := by
  cases bs with
  | nil => cases h
  | cons op rest =>
    obtain ⟨-, hn, -, -, hwf⟩ := decodeOpcode_instr h
    exact ⟨hwf, hn⟩

/-- Settles O4, by what the decoder's answer says about the bytes it was read from. -/
theorem encodeOfDecodeIsTheBytes : Obligations.EncodeOfDecodeIsTheBytes := by
  intro bs i n h
  obtain ⟨hwf, hn⟩ := wellFormed_and_length_of_decode h
  exact ⟨hwf, hn, hn ▸ Machine.decode_length_le h, encode_of_decode h⟩

/-! ### Whole streams -/

@[simp] theorem encode_length (i : Instr) : (encode i).length = i.length := by
  simp [encode, Instr.length, Nat.add_comm]

/-- Byte `k` of an operand holds its bits from `8 * k` on (R14). -/
theorem leBytes_getElem? (n : Nat) : ∀ {v k : Nat}, k < n → (leBytes n v)[k]? = some (BitVec.ofNat 8 (v / 256 ^ k)) := by
  induction n with
  | zero => exact fun hk => absurd hk (Nat.not_lt_zero _)
  | succ n ih =>
    intro v k hk
    cases k with
    | zero => simp [leBytes]
    | succ k => rw [leBytes, List.getElem?_cons_succ, ih (by omega), Nat.div_div_eq_div_mul, Nat.pow_succ']

/-- A stream that begins with the encoding of a well-formed instruction decodes to it and to the rest (R78). -/
theorem decodeStream_encode_append {i : Instr} (hi : i.WellFormed = true) (fuel : Nat) (rest : List Byte) :
    decodeStream (fuel + 1) (encode i ++ rest) = (decodeStream fuel rest).map (i :: ·) := by
  have hdecode := decode_encode_append hi rest
  have hdrop : (encode i ++ rest).drop i.length = rest := List.drop_left' (encode_length i)
  rw [encode, List.cons_append] at hdecode hdrop ⊢
  simp only [decodeStream, hdecode, hdrop]

/-- A byte string that decodes as a stream encodes back to itself (R82). -/
theorem encodeStream_of_decodeStream {fuel : Nat} {bs : List Byte} {is : List Instr}
    (h : decodeStream fuel bs = some is) : encodeStream is = bs := by
  fun_induction decodeStream fuel bs generalizing is with
  | case1 =>
    obtain rfl := Option.some.inj h
    rfl
  | case3 fuel b rest i n hi ih =>
    obtain ⟨js, hjs, rfl⟩ := Option.map_eq_some_iff.1 h
    rw [encodeStream, encode_of_decode hi, ih hjs, List.take_append_drop]
  | case2 | case4 | case5 => cases h

/-- The encoding of well-formed instructions decodes to them (R82). -/
theorem decodeStream_encodeStream (is : List Instr) (h : ∀ i ∈ is, i.WellFormed = true) :
    decodeStream is.length (encodeStream is) = some is := by
  induction is with
  | nil => rfl
  | cons i is ih =>
    obtain ⟨hi, his⟩ := List.forall_mem_cons.1 h
    rw [encodeStream, List.length_cons, decodeStream_encode_append hi, ih his]
    rfl

/-- Settles O5: the layout of an encoding byte by byte, and the two directions by induction on the stream. -/
theorem streamRoundTrip : Obligations.StreamRoundTrip :=
  ⟨fun i => ⟨encode_length i, rfl, fun _ hk => leBytes_getElem? i.operandWidth hk⟩,
    fun _ _ _ => encodeStream_of_decodeStream, decodeStream_encodeStream⟩

/-! ### Words of the table, and opcode bytes without a row -/

/-- Settles O1, by decoding each of the words. -/
theorem specWordsDecode : Obligations.SpecWordsDecode := by
  unfold Obligations.SpecWordsDecode
  decide

/-- Settles O2, by the classification of the opcode byte. -/
theorem invalidOpcodesAreThoseAboveTheTable : Obligations.InvalidOpcodesAreThoseAboveTheTable := by
  intro op rest
  rw [decode_cons, decodeOpcode_invalid]
  exact and_iff_right rfl

end Sys2Proof
end

