-- ==== Sys2Proof/Proofs/PlacedWord.lean ====
section
/-!
A word laid where the next fetch reads (log 8) is the next instruction executed (30_encoding.md R71,
40_fetch_decode_dispatch.md R96, R97).
-/

namespace Sys2Proof.Machine

/-- Bytes placed inside the instruction space are what reading at `pc` gives. -/
theorem bytesFrom_pc_place {s : State} {bs : List Byte} (hm : Memory.wf s.imem = true)
    (hfit : s.pc + bs.length ≤ s.cfg.maxInsts) : (s.place bs).bytesFrom s.pc bs.length = bs := by
  refine State.bytesFrom_eq _ bs s.pc hfit fun k hk => ?_
  rw [State.place_imem, List.take_of_length_le (by omega), Memory.read_writeBytes bs s.pc hm, if_pos (by omega),
    Nat.add_sub_cancel_left]

theorem decodeTableWord_eq_some {nbits w : Nat} {i : Instr} :
    decodeTableWord nbits w = some i ↔ ∃ n, decode (tableBytes nbits w) = .instr i n := by
  unfold decodeTableWord
  cases decode (tableBytes nbits w) <;> simp

theorem fetch_of_decodeAt_instr {s : State} {i : Instr} {n : Nat} (h : s.decodeAt s.pc = .instr i n) :
    fetch s = .ok i := by
  simp [fetch, h]

/-- A word placed with five bytes of the buffer left is what the next fetch decodes (R97). -/
theorem fetch_withFetchWord {s : State} {nbits w : Nat} {i : Instr} (hm : Memory.wf s.imem = true)
    (hfit : s.pc + 5 ≤ s.cfg.maxInsts) (hi : decodeTableWord nbits w = some i) :
    fetch (s.withFetchWord nbits w) = .ok i := by
  obtain ⟨n, hdecode⟩ := decodeTableWord_eq_some.1 hi
  have hlen : (tableBytes nbits w).length = maxInstrBytes := leBytes_length _ _
  have hbytes : (s.withFetchWord nbits w).bytesFrom s.pc maxInstrBytes = tableBytes nbits w :=
    hlen ▸ bytesFrom_pc_place hm (hlen ▸ hfit)
  exact fetch_of_decodeAt_instr (n := n) ((congrArg decode hbytes).trans hdecode)

/-- Settles O57: the placed core is Running, and its fetch reads the word. -/
theorem placedWordRunsNext : Obligations.PlacedWordRunsNext :=
  fun _ _ _ _ hinv hfit hi => step_of_fetch_ok rfl (fetch_withFetchWord hinv.imem_wf hfit hi)

end Sys2Proof.Machine
end

