-- ==== Sys2Proof/Proofs/FetchFaults.lean ====
section
/-!
What fetching answers (40_fetch_decode_dispatch.md): the instruction that stands at `pc`, or one of the faults in their order
(R91 to R93), from `pc`, MAX_INSTS and five bytes of the buffer alone (R97); a step runs what was fetched (R96).
-/

namespace Sys2Proof.Machine

/-! ### What fetching reads -/

theorem fetch_congr {s t : State} (hpc : t.pc = s.pc) (hc : t.cfg.maxInsts = s.cfg.maxInsts)
    (hread : ∀ k, k < maxInstrBytes → s.pc + k < s.cfg.maxInsts →
      Memory.read t.imem (s.pc + k) = Memory.read s.imem (s.pc + k)) : fetch t = fetch s := by
  have hbytes : t.bytesFrom t.pc maxInstrBytes = s.bytesFrom s.pc maxInstrBytes :=
    hpc ▸ State.bytesFrom_congr hc maxInstrBytes s.pc hread
  simp only [fetch, State.decodeAt, hbytes]

/-- Settles O31: the bytes that the decoder is given are the same. -/
theorem fetchIsLocal : Obligations.FetchIsLocal :=
  fun _ _ => fetch_congr

/-! ### What stands at `pc` -/

/-- The well-formed instruction `i` stands at `pc`, whole inside the instruction space (R91 to R94). -/
structure State.InstrAtPc (s : State) (i : Instr) : Prop where
  wellFormed : i.WellFormed = true
  opcode : i.opcodeByte = Memory.read s.imem s.pc
  fits : s.pc + 1 + i.operandWidth ≤ s.cfg.maxInsts
  operand : i.rawOperand = s.memRead (s.pc + 1) i.operandWidth

/-- A well-formed instruction is determined by its encoding (R82). -/
theorem eq_of_encode_eq {i j : Instr} (hi : i.WellFormed = true) (hj : j.WellFormed = true) (h : encode i = encode j) :
    i = j := by
  have hij := decode_encode_append hi []
  rw [h, decode_encode_append hj []] at hij
  exact (Decoded.instr.inj hij).1.symm

/-- At most one instruction stands at `pc`. -/
theorem State.InstrAtPc.unique {s : State} {i j : Instr} (hi : s.InstrAtPc i) (hj : s.InstrAtPc j) : i = j := by
  have hop : i.opcodeByte = j.opcodeByte := hi.opcode.trans hj.opcode.symm
  refine eq_of_encode_eq hi.wellFormed hj.wellFormed ?_
  rw [encode, encode, hi.operand, hj.operand, operandWidth_congr hop, hop]

/-- Inside the instruction space the decoder is given the byte at `pc` and up to four bytes after it. -/
theorem decodeAt_pc_of_lt {s : State} (hpc : s.pc < s.cfg.maxInsts) :
    s.decodeAt s.pc = decodeOpcode (Memory.read s.imem s.pc) (s.bytesFrom (s.pc + 1) 4) := by
  rw [State.decodeAt, maxInstrBytes, State.bytesFrom_succ, if_pos hpc, decode_cons]

/-- An opcode byte above the opcode map is no instruction's (R79). -/
theorem opcodeByte_ne_of_le {op : Byte} (h : 14 ≤ op.toNat) (i : Instr) : i.opcodeByte ≠ op := by
  rintro rfl
  exact absurd (opcodeByte_lt i) (Nat.not_lt.2 h)

/-- What fetching answers inside the instruction space: the instruction that stands at `pc`, InvalidOpcode for a byte that is
no instruction's, or TruncatedProgram for an operand that runs past the end. -/
theorem fetch_cases {s : State} (hpc : s.pc < s.cfg.maxInsts) :
    (∃ i, fetch s = .ok i ∧ s.InstrAtPc i) ∨
    (fetch s = .error .invalidOpcode ∧ ∀ i : Instr, i.opcodeByte ≠ Memory.read s.imem s.pc) ∨
    (fetch s = .error .truncatedProgram ∧
      ∃ i : Instr, i.opcodeByte = Memory.read s.imem s.pc ∧ s.cfg.maxInsts < s.pc + 1 + i.operandWidth) := by
  have hlen := s.bytesFrom_length 4 (s.pc + 1)
  rw [fetch, decodeAt_pc_of_lt hpc]
  cases hd : decodeOpcode (Memory.read s.imem s.pc) (s.bytesFrom (s.pc + 1) 4) with
  | instr i n =>
    obtain ⟨hop, -, hwidth, hraw, hwf⟩ := decodeOpcode_instr hd
    rw [State.bytesFrom_take s _ _ _ (operandWidth_le i)] at hraw
    exact .inl ⟨i, rfl, hwf, hop.symm, by omega, hraw⟩
  | invalid op => exact .inr (.inl ⟨rfl, opcodeByte_ne_of_le (decodeOpcode_invalid.1 hd).2⟩)
  | truncated =>
    obtain ⟨i, hop, hshort⟩ := decodeOpcode_truncated hd
    have hwidth := operandWidth_le i
    exact .inr (.inr ⟨rfl, i, hop.symm, by omega⟩)

/-! ### The faults of fetching, in their order -/

theorem fetch_of_no_opcode {s : State} (hpc : s.pc < s.cfg.maxInsts)
    (hno : ∀ i : Instr, i.opcodeByte ≠ Memory.read s.imem s.pc) : fetch s = .error .invalidOpcode := by
  obtain ⟨i, -, hi⟩ | ⟨hf, -⟩ | ⟨-, i, hop, -⟩ := fetch_cases hpc
  · exact absurd hi.opcode (hno i)
  · exact hf
  · exact absurd hop (hno i)

theorem fetch_of_short_operand {s : State} {i : Instr} (hpc : s.pc < s.cfg.maxInsts)
    (hop : i.opcodeByte = Memory.read s.imem s.pc) (hshort : s.cfg.maxInsts < s.pc + 1 + i.operandWidth) :
    fetch s = .error .truncatedProgram := by
  obtain ⟨j, -, hj⟩ | ⟨-, hno⟩ | ⟨hf, -⟩ := fetch_cases hpc
  · rw [operandWidth_congr (hop.trans hj.opcode.symm)] at hshort
    exact absurd hj.fits (Nat.not_le.2 hshort)
  · exact absurd hop (hno i)
  · exact hf

/-- A valid opcode byte with its operand bytes inside the buffer is fetched as the instruction that stands there. -/
theorem exists_fetch_ok {s : State} {i : Instr} (hop : i.opcodeByte = Memory.read s.imem s.pc)
    (hfit : s.pc + 1 + i.operandWidth ≤ s.cfg.maxInsts) : ∃ j, fetch s = .ok j ∧ s.InstrAtPc j := by
  obtain hok | ⟨-, hno⟩ | ⟨-, j, hopj, hshort⟩ := fetch_cases (s := s) (by omega)
  · exact hok
  · exact absurd hop (hno i)
  · rw [operandWidth_congr (hopj.trans hop.symm)] at hshort
    exact absurd hfit (Nat.not_le.2 hshort)

theorem fetch_of_instrAtPc {s : State} {i : Instr} (h : s.InstrAtPc i) : fetch s = .ok i := by
  obtain ⟨j, hf, hj⟩ := exists_fetch_ok h.opcode h.fits
  rwa [hj.unique h] at hf

/-- Settles O30, by what fetching answers in each of the four cases. -/
theorem fetchFaultsInOrder : Obligations.FetchFaultsInOrder := by
  intro s hs
  refine ⟨fun hpc => step_of_fetch_error hs (fetch_of_maxInsts_le_pc hpc),
    fun hpc hno => step_of_fetch_error hs (fetch_of_no_opcode hpc hno),
    fun i hpc hop hshort => step_of_fetch_error hs (fetch_of_short_operand hpc hop hshort), fun i hop hfit => ?_⟩
  obtain ⟨j, hf, hj⟩ := exists_fetch_ok hop hfit
  exact ⟨j, hj.wellFormed, hj.opcode.trans hop.symm, hj.operand, step_of_fetch_ok hs hf⟩

/-- Settles O29: the instruction that stands at `pc` is the one fetched. -/
theorem stepRunsTheDecodedInstruction : Obligations.StepRunsTheDecodedInstruction :=
  fun _ _ hs hwf _ hop hfit hraw => step_of_fetch_ok hs (fetch_of_instrAtPc ⟨hwf, hop.symm, hfit, hraw.symm⟩)

end Sys2Proof.Machine
end

