-- ==== Sys2Proof/Proofs/RunOutcome.lean ====
section
/-!
The end of a run: Halted and Faulted are absorbing (40_fetch_decode_dispatch.md R99, 60_exceptions.md R183), and the outcome
that the host reads is final (70_reset_and_hazards.md R208).
-/

namespace Sys2Proof.Machine

/-! ### An ended core -/

theorem step_of_ended {s : State} (h : s.status ≠ .running) : step s = .next s := by
  cases hs : s.status with
  | running => exact absurd hs h
  | halted | faulted => simp [step, hs]

theorem runFor_of_ended (n : Nat) {s : State} (h : s.status ≠ .running) : runFor n s = .next s := by
  induction n with
  | zero => rfl
  | succ n ih => exact runFor_succ.2 ⟨s, step_of_ended h, ih⟩

/-- Settles O34, by induction on the number of steps. -/
theorem endedRunsNeverChange : Obligations.EndedRunsNeverChange :=
  fun n _ => runFor_of_ended n

/-! ### The outcome -/

theorem outcome_of_running {s : State} (h : s.status = .running) : outcome s = none := by
  simp [outcome, h]

theorem outcome_of_halted {s : State} (h : s.status = .halted) : outcome s = some .completed := by
  simp [outcome, h]

theorem outcome_of_faulted {s : State} {k : FaultKind} (h : s.status = .faulted) (hk : s.cause = some k) :
    outcome s = some (.faulted k s.faultPc) := by
  simp [outcome, h, hk]

/-- Only an ended core has an outcome (R99). -/
theorem status_ne_running_of_outcome {s : State} {o : RunOutcome} (h : outcome s = some o) : s.status ≠ .running := by
  intro hs
  rw [outcome_of_running hs] at h
  cases h

/-- The observable result of a run is the outcome and the output of the state it ends in (R208). -/
theorem hostRun_eq_some {n : Nat} {c : Config} {bytes : List Byte} {r : RunOutcome × List Word} :
    hostRun n c bytes = some r ↔
      ∃ t, runFor n (boot c bytes) = .next t ∧ outcome t = some r.1 ∧ t.out = r.2 := by
  unfold hostRun
  cases runFor n (boot c bytes) <;> simp [Prod.ext_iff]

/-- Settles O53: in a state of the spec a Faulted core has a cause, and an ended core stays as it is. -/
theorem runOutcomeIsFinal : Obligations.RunOutcomeIsFinal := by
  refine ⟨fun s h => ?_, fun n k c bytes r hr => ?_⟩
  · cases hs : s.status with
    | running => simp [outcome_of_running hs]
    | halted => simp [outcome_of_halted hs]
    | faulted =>
      obtain ⟨k, hk⟩ := Option.ne_none_iff_exists'.1 (h.faulted_iff.1 hs)
      simp [outcome_of_faulted hs hk, hk]
  · obtain ⟨t, hrun, ho, hout⟩ := hostRun_eq_some.1 hr
    have hmore : runFor (n + k) (boot c bytes) = .next t :=
      (runFor_add n k hrun).trans (runFor_of_ended k (status_ne_running_of_outcome ho))
    exact hostRun_eq_some.2 ⟨t, hmore, ho, hout⟩

end Sys2Proof.Machine
end

