-- ==== Sys2Proof/Proofs/StackOps.lean ====
section
/-!
The stack instructions (41_stack_ops.md R111 to R113), and the completion of every instruction under the condition that its own
rule names: in a state of the spec the completions of `Completes` are what `exec` answers (files 41 to 45).
-/

namespace Sys2Proof.Machine

/-! ### POP -/

theorem exec_pop_of_nonempty {s : State} (hsp : s.sp ≠ 0) : exec .pop s = .next (s.dropped.advance 1) :=
  if_neg hsp

theorem exec_pop_of_empty {s : State} (hsp : s.sp = 0) : exec .pop s = .next (s.faultEntry .stackUnderflow) :=
  if_pos hsp

/-! ### Every instruction -/

/-- In a state of the spec every completion is what the instruction answers: the converse of `exec_next_completes`. -/
theorem State.Inv.exec_of_completes {i : Instr} {s t : State} (h : s.Inv) (hc : Completes s i t) :
    exec i s = .next t := by
  have hslots := h.stackCap_lt_length
  cases hc with
  | nop | jmp | stop => rfl
  | push room => exact exec_push_of_room room (room.trans hslots)
  | pop nonempty => exact exec_pop_of_nonempty nonempty
  | loadOutOfRange range => exact if_neg (by simpa using range)
  | load range room value =>
    rw [exec, execLoad, if_pos (State.regInRange_iff.2 range), withRoom_of_room room (room.trans hslots)]
    simp [withReg, value]
  | storeOutOfRange range nonempty =>
    obtain ⟨v, top⟩ := h.slot (Nat.sub_one_lt nonempty)
    exact (withTop_of_top nonempty top).trans (if_neg (by simpa using range))
  | store range held nonempty top =>
    exact ((withTop_of_top nonempty top).trans (if_pos (State.regInRange_iff.2 range))).trans (if_pos held)
  | jzZero nonempty top | jnzZero nonempty top => exact withTop_of_top nonempty top
  | jzNonzero nonempty top | jnzNonzero nonempty top =>
    obtain ⟨v, hv⟩ := h.slot (Nat.sub_one_lt nonempty)
    have hv0 : v ≠ 0#32 := by simpa [hv] using top
    exact (withTop_of_top nonempty hv).trans (congrArg _ (if_neg (by simpa using hv0)))
  | add two under top | sub two under top | mul two under top => exact withTwo_of_two two under top
  | div two under top divisor => exact (withTwo_of_two two under top).trans (if_neg divisor)
  | print nonempty top => exact withTop_of_top nonempty top

/-- A completion records no cause, and ends the run only where the instruction is STOP (R33, R164). -/
theorem Completes.cause_and_status {i : Instr} {s t : State} (hc : Completes s i t) :
    t.cause = s.cause ∧ t.status = if i = .stop then .halted else s.status := by
  cases hc <;> simp

/-- Two live values are two words. -/
theorem State.Inv.two_slots {s : State} (h : s.Inv) (two : 2 ≤ s.sp) :
    ∃ a b, s.stack[s.sp - 2]? = some a ∧ s.stack[s.sp - 1]? = some b := by
  obtain ⟨a, under⟩ := h.slot (show s.sp - 2 < s.sp by omega)
  obtain ⟨b, top⟩ := h.slot (show s.sp - 1 < s.sp by omega)
  exact ⟨a, b, under, top⟩

/-- Settles O20: under its own condition each instruction has a completion, and `exec` answers it. -/
theorem everyInstructionCompletesWhenReady : Obligations.EveryInstructionCompletesWhenReady := by
  intro i s h hs hready
  obtain ⟨t, hc⟩ : ∃ t, Completes s i t := by
    cases i with
    | nop => exact ⟨_, .nop⟩
    | jmp a => exact ⟨_, .jmp⟩
    | stop => exact ⟨_, .stop⟩
    | push n => exact ⟨_, .push hready⟩
    | load r =>
      obtain hr | hr := Nat.lt_or_ge r s.cfg.nregs
      · obtain ⟨v, hv⟩ := h.register hr
        exact ⟨_, .load hr (hready hr) hv⟩
      · exact ⟨_, .loadOutOfRange hr⟩
    | pop => exact ⟨_, .pop (Nat.ne_of_gt hready)⟩
    | store r =>
      obtain ⟨v, top⟩ := h.slot (Nat.sub_lt hready Nat.one_pos)
      obtain hr | hr := Nat.lt_or_ge r s.cfg.nregs
      · exact ⟨_, .store hr (h.x_length ▸ hr) (Nat.ne_of_gt hready) top⟩
      · exact ⟨_, .storeOutOfRange hr (Nat.ne_of_gt hready)⟩
    | jz a =>
      by_cases top : s.stack[s.sp - 1]? = some 0#32
      · exact ⟨_, .jzZero (Nat.ne_of_gt hready) top⟩
      · exact ⟨_, .jzNonzero (Nat.ne_of_gt hready) top⟩
    | jnz a =>
      by_cases top : s.stack[s.sp - 1]? = some 0#32
      · exact ⟨_, .jnzZero (Nat.ne_of_gt hready) top⟩
      · exact ⟨_, .jnzNonzero (Nat.ne_of_gt hready) top⟩
    | print =>
      obtain ⟨v, top⟩ := h.slot (Nat.sub_lt hready Nat.one_pos)
      exact ⟨_, .print (Nat.ne_of_gt hready) top⟩
    | add | sub | mul =>
      obtain ⟨a, b, under, top⟩ := h.two_slots hready
      exact ⟨_, by constructor; exacts [hready, under, top]⟩
    | div =>
      obtain ⟨two, hdivisor⟩ := hready
      obtain ⟨a, b, under, top⟩ := h.two_slots two
      exact ⟨_, .div two under top fun hb => hdivisor (hb ▸ top)⟩
  obtain ⟨hcause, hstatus⟩ := hc.cause_and_status
  exact ⟨t, h.exec_of_completes hc, hcause.trans (h.cause_eq_none (by simp [hs])), by rw [hstatus, hs]⟩

/-! ### PUSH and POP, each with its encoding, and one after the other -/

/-- The bytes of PUSH: the opcode byte, then the immediate's four bytes, least significant first (R73, R82). -/
theorem encode_push (n : Word) : encode (.push n) =
    [0x01, n.extractLsb' 0 8, n.extractLsb' 8 8, n.extractLsb' 16 8, n.extractLsb' 24 8] := by
  simp [encode, Instr.opcodeByte, Instr.operandWidth, Instr.rawOperand, leBytes, BitVec.extractLsb',
    Nat.shiftRight_eq_div_pow, Nat.div_div_eq_div_mul]

/-- Settles O7: the decoder reads back the encoding of PUSH, and the slot at `sp` exists whenever there is room. -/
theorem pushWritesTheNextSlot : Obligations.PushWritesTheNextSlot := by
  refine ⟨fun n rest => ?_, fun _ _ h hroom => ?_, fun _ _ hfull => exec_push_of_full hfull⟩
  · have hdecode := decode_encode_append (i := .push n) rfl rest
    rwa [encode_push] at hdecode
  · exact exec_push_of_room hroom (hroom.trans h.stackCap_lt_length)

/-- Settles O8: the decoder reads back the encoding of POP, and POP tests `sp` alone. -/
theorem popDropsTheTop : Obligations.PopDropsTheTop :=
  ⟨decode_encode_append (i := .pop) rfl, fun _ => exec_pop_of_nonempty, fun _ => exec_pop_of_empty⟩

/-- Settles O45: PUSH writes a slot that is not live, and POP makes it dead again. -/
theorem pushThenPopRestores : Obligations.PushThenPopRestores := by
  intro n s h hroom
  have hpush := exec_push_of_room (n := n) hroom (hroom.trans h.stackCap_lt_length)
  have hpop : exec .pop ((s.pushed n).advance 5) = _ := exec_pop_of_nonempty (Nat.succ_ne_zero s.sp)
  refine ⟨_, (execSeq_cons_of_next hpush).trans (execSeq_cons_of_next hpop), rfl, fun j hj => ?_, rfl, rfl⟩
  exact List.getElem?_set_ne hj.ne'

end Sys2Proof.Machine
end

