-- ==== Sys2Proof/Proofs/RegisterOps.lean ====
section
/-!
The register instructions (42_register_ops.md R121, R123, R124): what LOAD and STORE do in each of their cases, and that
each undoes the other.
-/

namespace Sys2Proof.Machine

/-- The operand step on a one-byte operand reads the byte's unsigned value (R74, R93). -/
theorem decodeOperand_register (r : Byte) (rest : List Byte) (make : Nat → Instr) :
    decodeOperand 1 (r :: rest) make = .instr (make r.toNat) 2 :=
  decodeOperand_instr.2 ⟨by simp, by simp [leNat], rfl⟩

/-! ### LOAD -/

theorem exec_load_of_room {r : Nat} {v : Word} {s : State} (hr : r < s.cfg.nregs) (hsp : s.sp < s.cfg.stackCap)
    (hl : s.sp < s.stack.length) (hv : s.x[r]? = some v) : exec (.load r) s = .next ((s.pushed v).advance 2) := by
  rw [exec, execLoad, if_pos (State.regInRange_iff.2 hr), withRoom_of_room hsp hl, withReg, hv]

theorem exec_load_of_full {r : Nat} {s : State} (hr : r < s.cfg.nregs) (hfull : s.cfg.stackCap ≤ s.sp) :
    exec (.load r) s = .next (s.faultEntry .stackOverflow) :=
  (if_pos (State.regInRange_iff.2 hr)).trans (if_pos hfull)

theorem exec_load_of_out_of_range {r : Nat} {s : State} (hr : s.cfg.nregs ≤ r) :
    exec (.load r) s = .next (s.advance 2) :=
  if_neg (by simpa using hr)

/-- A register that holds a word is one of the NREGS registers. -/
theorem State.Inv.lt_nregs {s : State} (h : s.Inv) {r : Nat} {v : Word} (hv : s.x[r]? = some v) : r < s.cfg.nregs :=
  h.x_length ▸ (List.getElem?_eq_some_iff.1 hv).1

/-- Settles O9: LOAD's operand byte is the register index, tested for its range before the stack is tested for room. -/
theorem loadPushesTheRegister : Obligations.LoadPushesTheRegister := by
  refine ⟨fun r rest => decodeOperand_register r rest .load, ?_, ?_, ?_⟩
  · exact fun r v s h hv hroom => exec_load_of_room (h.lt_nregs hv) hroom (hroom.trans h.stackCap_lt_length) hv
  · exact fun _ _ => exec_load_of_out_of_range
  · exact fun _ _ => exec_load_of_full

/-! ### STORE -/

theorem exec_store_of_top {r : Nat} {v : Word} {s : State} (hr : r < s.cfg.nregs) (hheld : r < s.x.length)
    (hsp : s.sp ≠ 0) (htop : s.stack[s.sp - 1]? = some v) :
    exec (.store r) s = .next ((s.dropped.advance 2).setReg r v) :=
  ((withTop_of_top hsp htop).trans (if_pos (State.regInRange_iff.2 hr))).trans (if_pos hheld)

theorem exec_store_of_empty {r : Nat} {s : State} (hsp : s.sp = 0) :
    exec (.store r) s = .next (s.faultEntry .stackUnderflow) :=
  if_pos hsp

/-- Settles O10: STORE's operand byte is the register index, tested for its range after the pop. -/
theorem storePopsIntoTheRegister : Obligations.StorePopsIntoTheRegister := by
  refine ⟨fun r rest => decodeOperand_register r rest .store, ?_, ?_, ?_⟩
  · exact fun r v s h hsp htop hr => exec_store_of_top hr (h.x_length ▸ hr) hsp htop
  · exact fun r s h hsp hr => h.exec_of_completes (.storeOutOfRange hr hsp)
  · exact fun _ _ => exec_store_of_empty

/-! ### One after the other -/

/-- Pushing back the word just popped restores the state: its slot kept it (R24). -/
theorem State.pushed_dropped_of_top {s : State} {v : Word} (hsp : s.sp ≠ 0) (htop : s.stack[s.sp - 1]? = some v) :
    s.dropped.pushed v = s := by
  obtain ⟨hslot, rfl⟩ := List.getElem?_eq_some_iff.1 htop
  simp [State.pushed, State.dropped, Nat.sub_one_add_one hsp]

/-- Writing a register's own word changes nothing. -/
theorem State.setReg_of_holds {s : State} {r : Nat} {v : Word} (hv : s.x[r]? = some v) : s.setReg r v = s := by
  obtain ⟨hheld, rfl⟩ := List.getElem?_eq_some_iff.1 hv
  simp [State.setReg]

/-- Popping the word just pushed changes at most the slot it was pushed to, which is not live (R24). -/
theorem State.sameLive_dropped_pushed (s : State) (v : Word) : s.SameLive (s.pushed v).dropped where
  rest := rfl
  length := by simp
  live j hj := List.getElem?_set_ne hj.ne'

/-- STORE leaves the popped word in its slot, so that LOAD pushes back what stands there. -/
theorem execSeq_store_load {r : Nat} {v : Word} {s : State} (h : s.Inv) (hr : r < s.cfg.nregs) (hsp : 1 ≤ s.sp)
    (htop : s.stack[s.sp - 1]? = some v) :
    execSeq [.store r, .load r] s = .next ((s.setReg r v).advance 4) := by
  have hne : s.sp ≠ 0 := Nat.ne_of_gt hsp
  have hheld : r < s.x.length := h.x_length ▸ hr
  have hroom : s.sp - 1 < s.cfg.stackCap := (Nat.sub_one_lt hne).trans_le h.sp_le
  have hload := exec_load_of_room (s := (s.dropped.advance 2).setReg r v) (v := v) hr hroom
    (hroom.trans h.stackCap_lt_length) (List.getElem?_set_self hheld)
  calc execSeq [.store r, .load r] s
      = execSeq [.load r] ((s.dropped.advance 2).setReg r v) :=
        execSeq_cons_of_next (exec_store_of_top hr hheld hne htop)
    _ = .next (((s.dropped.pushed v).setReg r v).advance 4) := execSeq_cons_of_next hload
    _ = .next ((s.setReg r v).advance 4) := by rw [State.pushed_dropped_of_top hne htop]

/-- STORE writes back to the register the word that LOAD read from it. -/
theorem execSeq_load_store {r : Nat} {v : Word} {s : State} (h : s.Inv) (hsp : s.sp < s.cfg.stackCap)
    (hv : s.x[r]? = some v) :
    execSeq [.load r, .store r] s = .next ((s.pushed v).dropped.advance 4) := by
  have hr : r < s.cfg.nregs := h.lt_nregs hv
  have hslot : s.sp < s.stack.length := hsp.trans h.stackCap_lt_length
  have hstore := exec_store_of_top (s := (s.pushed v).advance 2) (v := v) hr (h.x_length ▸ hr)
    (Nat.succ_ne_zero s.sp) (List.getElem?_set_self hslot)
  calc execSeq [.load r, .store r] s
      = execSeq [.store r] ((s.pushed v).advance 2) := execSeq_cons_of_next (exec_load_of_room hr hsp hslot hv)
    _ = .next (((s.pushed v).dropped.advance 4).setReg r v) := execSeq_cons_of_next hstore
    _ = .next ((s.pushed v).dropped.advance 4) := congrArg _ (State.setReg_of_holds hv)

/-- Settles O46: STORE keeps the word in its slot, and LOAD writes no live slot. -/
theorem storeAndLoadAreInverse : Obligations.StoreAndLoadAreInverse := by
  refine ⟨fun _ _ _ => execSeq_store_load, fun r s h hr hroom => ?_⟩
  obtain ⟨v, hv⟩ := h.register hr
  exact ⟨_, execSeq_load_store h hroom hv, (s.sameLive_dropped_pushed v).advance 4⟩

end Sys2Proof.Machine
end

