-- ==== Sys2Proof/Proofs/Jumps.lean ====
section
/-!
The jumps (43_jumps.md): what JMP, JZ and JNZ do in each of their cases (R131 to R134), that JZ and JNZ complement each other
(R135), and that a run whose taken jumps all go forward ends (R136).
-/

namespace Sys2Proof.Machine

/-- The operand step on a two-byte operand reads the unsigned value of the bytes, the low one first (R75, R93). -/
theorem decodeOperand_target (lo hi : Byte) (rest : List Byte) (make : Nat → Instr) :
    decodeOperand 2 (lo :: hi :: rest) make = .instr (make (lo.toNat + 256 * hi.toNat)) 3 :=
  decodeOperand_instr.2 ⟨by simp, by simp [leNat], rfl⟩

/-! ### JMP -/

theorem exec_jmp_of_lt {a : Nat} {s : State} (ha : a < s.cfg.maxInsts) :
    exec (.jmp a) s = .next { s with pc := a } := by
  rw [exec, execJmp, State.jumpTo, if_pos ha]

theorem exec_jmp_of_le {a : Nat} {s : State} (ha : s.cfg.maxInsts ≤ a) :
    exec (.jmp a) s = .next (s.advance 3) := by
  rw [exec, execJmp, State.jumpTo, if_neg (Nat.not_lt.2 ha), State.advance]

/-- Settles O11: JMP's operand bytes are the target, tested against MAX_INSTS. -/
theorem jmpGoesToAValidTarget : Obligations.JmpGoesToAValidTarget :=
  ⟨fun lo hi rest => decodeOperand_target lo hi rest .jmp, fun _ _ => exec_jmp_of_lt, fun _ _ => exec_jmp_of_le⟩

/-! ### JZ and JNZ -/

/-- The end of a conditional jump to `a` whose condition is `c`: `pc` moves to a valid target if `c` holds, and otherwise
past the three bytes of the jump (R131, R133, R134). -/
def State.jumpIf (c : Prop) [Decidable c] (a : Nat) (s : State) : State :=
  { s with pc := if c ∧ a < s.cfg.maxInsts then a else s.pc + 3 }

theorem State.jumpIf_of_true {c : Prop} [Decidable c] (hc : c) (a : Nat) (s : State) : s.jumpIf c a = s.jumpTo a := by
  simp [State.jumpIf, State.jumpTo, hc]

theorem State.jumpIf_of_false {c : Prop} [Decidable c] (hc : ¬ c) (a : Nat) (s : State) :
    s.jumpIf c a = s.advance 3 := by
  simp [State.jumpIf, State.advance, hc]

theorem exec_jz_of_top {a : Nat} {v : Word} {s : State} (hsp : s.sp ≠ 0) (htop : s.stack[s.sp - 1]? = some v) :
    exec (.jz a) s = .next (s.dropped.jumpIf (v = 0#32) a) := by
  rw [exec, execJz, withTop_of_top hsp htop]
  by_cases hv : v = 0#32
  · rw [if_pos (isZero_iff.2 hv), State.jumpIf_of_true hv]
  · rw [if_neg (mt isZero_iff.1 hv), State.jumpIf_of_false hv]

theorem exec_jnz_of_top {a : Nat} {v : Word} {s : State} (hsp : s.sp ≠ 0) (htop : s.stack[s.sp - 1]? = some v) :
    exec (.jnz a) s = .next (s.dropped.jumpIf (v ≠ 0#32) a) := by
  rw [exec, execJnz, withTop_of_top hsp htop]
  by_cases hv : v = 0#32
  · rw [if_pos (isZero_iff.2 hv), State.jumpIf_of_false (not_not.2 hv)]
  · rw [if_neg (mt isZero_iff.1 hv), State.jumpIf_of_true hv]

theorem exec_jz_of_empty {a : Nat} {s : State} (hsp : s.sp = 0) :
    exec (.jz a) s = .next (s.faultEntry .stackUnderflow) :=
  if_pos hsp

theorem exec_jnz_of_empty {a : Nat} {s : State} (hsp : s.sp = 0) :
    exec (.jnz a) s = .next (s.faultEntry .stackUnderflow) :=
  if_pos hsp

/-- Settles O12: JZ pops, then jumps if the popped word is zero. -/
theorem jzPopsAndJumpsOnZero : Obligations.JzPopsAndJumpsOnZero :=
  ⟨fun lo hi rest => decodeOperand_target lo hi rest .jz, fun _ _ _ => exec_jz_of_top, fun _ _ => exec_jz_of_empty⟩

/-- Settles O13: JNZ pops, then jumps if the popped word is not zero. -/
theorem jnzPopsAndJumpsOnNonzero : Obligations.JnzPopsAndJumpsOnNonzero :=
  ⟨fun lo hi rest => decodeOperand_target lo hi rest .jnz, fun _ _ _ => exec_jnz_of_top, fun _ _ => exec_jnz_of_empty⟩

/-- Settles O47: both pop one word and differ in `pc` alone, and that word is zero or it is not. -/
theorem jzAndJnzAreComplementary : Obligations.JzAndJnzAreComplementary := by
  intro a s h hlive ha
  have hsp : s.sp ≠ 0 := Nat.ne_of_gt hlive
  obtain ⟨v, htop⟩ := h.slot (Nat.sub_one_lt hsp)
  refine ⟨_, _, exec_jz_of_top hsp htop, exec_jnz_of_top hsp htop, ?_, rfl⟩
  by_cases hv : v = 0#32
  · exact .inl (by simp [State.jumpIf, hv, ha])
  · exact .inr (by simp [State.jumpIf, hv, ha])

/-! ### Forward jumps only -/

/-- Along the run from `s` every jump taken goes to an address above its own. -/
def State.ForwardOnly (s : State) : Prop :=
  ∀ (n p : Nat) (u : State), runFor n s = .next u → u.status = .running → u.takenTarget = some p → u.pc < p

theorem State.ForwardOnly.of_step {s u : State} (h : s.ForwardOnly) (hstep : step s = .next u) : u.ForwardOnly :=
  fun n p v hrun => h (n + 1) p v (runFor_succ.2 ⟨u, hstep, hrun⟩)

/-- A run that ends in a Running core started in one: an ended core does not start again (R99). -/
theorem running_of_runFor {n : Nat} {s t : State} (hrun : runFor n s = .next t) (ht : t.status = .running) :
    s.status = .running := by
  by_contra hs
  obtain rfl := Host.Outcome.next.inj ((runFor_of_ended n hs).symm.trans hrun)
  exact hs ht

/-- A step between Running cores moves `pc` up: to the target of a forward jump, or past an instruction (R28). -/
theorem State.ForwardOnly.pc_lt {s u : State} (h : s.ForwardOnly) (hs : s.status = .running)
    (hstep : step s = .next u) (hu : u.status = .running) : s.pc < u.pc := by
  obtain ⟨p, htaken, hpc, -⟩ | ⟨-, i, -, hpc, hlen⟩ := onlyTakenJumpsDoNotAdvance s u hs hstep (by simp [hu])
  · exact hpc ▸ h 0 p s rfl hs htaken
  · omega

/-- As long as the core is Running, `pc` has gone up by one for each step at least. -/
theorem State.ForwardOnly.pc_add_le (n : Nat) : ∀ {s t : State}, s.ForwardOnly → runFor n s = .next t →
    t.status = .running → s.pc + n ≤ t.pc := by
  induction n with
  | zero =>
    intro s t _ hrun _
    obtain rfl := Host.Outcome.next.inj hrun
    exact le_rfl
  | succ n ih =>
    intro s t h hrun ht
    obtain ⟨u, hstep, hrest⟩ := runFor_succ.1 hrun
    have hfirst : s.pc < u.pc := h.pc_lt (running_of_runFor hrun ht) hstep (running_of_runFor hrest ht)
    have hlater : u.pc + n ≤ t.pc := ih (h.of_step hstep) hrest ht
    omega

/-- Settles O43: a core still Running after MAX_INSTS + 1 steps would have `pc` above MAX_INSTS, outside the invariant. -/
theorem forwardOnlyRunsEnd : Obligations.ForwardOnlyRunsEnd := by
  intro s hinv hforward
  obtain ⟨t, hrun, htinv⟩ := runsNeverLeaveTheSpec (s.cfg.maxInsts + 1) s hinv
  refine ⟨t, hrun, fun ht => ?_⟩
  have hup : s.pc + (s.cfg.maxInsts + 1) ≤ t.pc := State.ForwardOnly.pc_add_le _ hforward hrun ht
  have hle : t.pc ≤ s.cfg.maxInsts := (runFor_runFrame hrun).cfg ▸ htinv.pc_le
  omega

end Sys2Proof.Machine
end

