-- ==== Sys2Proof/Proofs/Arithmetic.lean ====
section
/-!
The ALU (44_arithmetic.md): its four results are the two's complement ones, with the quotient rounded toward zero (R141, R147),
and what ADD, SUB, MUL and DIV do in each of their cases (R142 to R146).
-/

namespace Sys2Proof.Machine

/-! ### ADD, SUB and MUL wrap -/

theorem aluAdd_eq_add (a b : Word) : aluAdd a b = a + b := by
  rw [aluAdd, wrap32, BitVec.ofInt_add, BitVec.ofInt_toInt, BitVec.ofInt_toInt]

theorem ofInt_sub {w : Nat} (m n : Int) : BitVec.ofInt w (m - n) = BitVec.ofInt w m - BitVec.ofInt w n := by
  rw [Int.sub_eq_add_neg, BitVec.ofInt_add, BitVec.ofInt_neg, BitVec.sub_eq_add_neg]

theorem aluSub_eq_sub (a b : Word) : aluSub a b = a - b := by
  rw [aluSub, wrap32, ofInt_sub, BitVec.ofInt_toInt, BitVec.ofInt_toInt]

theorem aluMul_eq_mul (a b : Word) : aluMul a b = a * b := by
  rw [aluMul, wrap32, BitVec.ofInt_mul, BitVec.ofInt_toInt, BitVec.ofInt_toInt]

/-- Wrapping leaves an `Int32` as it is (R12). -/
theorem toInt_wrap32_of_int32 {n : Int} (lo : -2 ^ 31 ≤ n) (hi : n < 2 ^ 31) : (wrap32 n).toInt = n :=
  BitVec.toInt_ofInt_eq_self (by decide) lo hi

/-- Settles O49: each result is the operation on bit vectors, which does not ask how its operands are read. -/
theorem wrapKeepsTheLowBits : Obligations.WrapKeepsTheLowBits := by
  intro a b
  refine ⟨?_, ?_, ?_, fun n lo hi => ⟨?_, ?_, ?_⟩⟩
  · simp [aluAdd_eq_add, BitVec.ofNat_add]
  · simp [aluSub_eq_sub, ofInt_sub]
  · simp [aluMul_eq_mul, BitVec.ofNat_mul]
  all_goals
    rintro rfl
    exact toInt_wrap32_of_int32 lo hi

/-! ### The quotient of DIV -/

/-- The truncated quotient by signs and magnitudes (R147). -/
theorem tdiv_eq_sign_mul_natAbs_div (m n : Int) :
    m.tdiv n = m.sign * n.sign * (m.natAbs / n.natAbs : Nat) := by
  have hmag : (m.tdiv n).natAbs = m.natAbs / n.natAbs := Int.natAbs_tdiv m n
  rw [← Int.sign_mul_natAbs (m.tdiv n), Int.sign_tdiv, hmag]
  split
  · next hlt => simp [Nat.div_eq_of_lt hlt]
  · rfl

theorem aluTdiv_eq_ofInt_sign_mul (a b : Word) :
    aluTdiv a b = BitVec.ofInt 32 (a.toInt.sign * b.toInt.sign * (a.toInt.natAbs / b.toInt.natAbs : Nat)) := by
  rw [aluTdiv, wrap32, tdiv_eq_sign_mul_natAbs_div]

theorem aluTdiv_eq_sdiv (a b : Word) : aluTdiv a b = a.sdiv b :=
  BitVec.eq_of_toInt_eq ((BitVec.toInt_ofInt _).trans (BitVec.toInt_sdiv a b).symm)

/-- The quotient is exact in every case but -2^31 / -1. -/
theorem toInt_aluTdiv_of_fits {a b : Word} (h : ¬(a.toInt = -2 ^ 31 ∧ b.toInt = -1)) :
    (aluTdiv a b).toInt = a.toInt.tdiv b.toInt := by
  have hne : a ≠ BitVec.intMin 32 ∨ b ≠ -1#32 := by
    by_contra! hab
    obtain ⟨rfl, rfl⟩ := hab
    exact h (by decide)
  rw [aluTdiv_eq_sdiv, BitVec.toInt_sdiv_of_ne_or_ne a b hne]

/-- Settles O50: the quotient is the truncated one, which wraps in its single case that does not fit. -/
theorem quotientRoundsTowardZero : Obligations.QuotientRoundsTowardZero := by
  refine fun a b _ => ⟨aluTdiv_eq_ofInt_sign_mul a b, fun hfits => ?_, fun ha hb => ?_⟩
  · rw [toInt_aluTdiv_of_fits hfits, tdiv_eq_sign_mul_natAbs_div]
  · rw [aluTdiv, ha, hb]
    decide

/-! ### The instructions -/

/-- All four raise StackUnderflow when fewer than two values are live (R142). -/
theorem withTwo_of_few {s : State} {f : Word → Word → Result} (few : s.sp < 2) :
    withTwo s f = .next (s.faultEntry .stackUnderflow) :=
  if_pos few

theorem exec_add_of_two {a b : Word} {s : State} (two : 2 ≤ s.sp) (under : s.stack[s.sp - 2]? = some a)
    (top : s.stack[s.sp - 1]? = some b) : exec .add s = .next (s.result (aluAdd a b)) :=
  withTwo_of_two two under top

theorem exec_sub_of_two {a b : Word} {s : State} (two : 2 ≤ s.sp) (under : s.stack[s.sp - 2]? = some a)
    (top : s.stack[s.sp - 1]? = some b) : exec .sub s = .next (s.result (aluSub a b)) :=
  withTwo_of_two two under top

theorem exec_mul_of_two {a b : Word} {s : State} (two : 2 ≤ s.sp) (under : s.stack[s.sp - 2]? = some a)
    (top : s.stack[s.sp - 1]? = some b) : exec .mul s = .next (s.result (aluMul a b)) :=
  withTwo_of_two two under top

theorem exec_div_of_nonzero {a b : Word} {s : State} (two : 2 ≤ s.sp) (under : s.stack[s.sp - 2]? = some a)
    (top : s.stack[s.sp - 1]? = some b) (divisor : b ≠ 0#32) : exec .div s = .next (s.result (aluTdiv a b)) :=
  (withTwo_of_two two under top).trans (if_neg divisor)

/-- The dividend is not looked at: where the top slot exists, so does the one under it. -/
theorem exec_div_of_zero {s : State} (two : 2 ≤ s.sp) (top : s.stack[s.sp - 1]? = some 0#32) :
    exec .div s = .next (s.faultEntry .divideByZero) := by
  obtain ⟨hslot, -⟩ := List.getElem?_eq_some_iff.1 top
  have under : s.stack[s.sp - 2]? = some (s.stack[s.sp - 2]) := List.getElem?_eq_getElem (by omega)
  exact (withTwo_of_two two under top).trans (if_pos rfl)

/-- Settles O14: the decoder reads back the encoding of ADD, and ADD's result is the wrapped sum. -/
theorem addReplacesTwoByTheirSum : Obligations.AddReplacesTwoByTheirSum :=
  ⟨decode_encode_append (i := .add) rfl, fun _ _ _ => exec_add_of_two, fun _ => withTwo_of_few⟩

/-- Settles O15: the decoder reads back the encoding of SUB, and SUB's result is the wrapped difference. -/
theorem subReplacesTwoByTheirDifference : Obligations.SubReplacesTwoByTheirDifference :=
  ⟨decode_encode_append (i := .sub) rfl, fun _ _ _ => exec_sub_of_two, fun _ => withTwo_of_few⟩

/-- Settles O16: the decoder reads back the encoding of MUL, and MUL's result is the wrapped product. -/
theorem mulReplacesTwoByTheirProduct : Obligations.MulReplacesTwoByTheirProduct :=
  ⟨decode_encode_append (i := .mul) rfl, fun _ _ _ => exec_mul_of_two, fun _ => withTwo_of_few⟩

/-- Settles O17: the decoder reads back the encoding of DIV, which tests for two values, then the divisor, then divides. -/
theorem divReplacesTwoByTheirQuotient : Obligations.DivReplacesTwoByTheirQuotient := by
  refine ⟨decode_encode_append (i := .div) rfl, fun a b s two under top divisor => ?_, fun _ => exec_div_of_zero,
    fun _ => withTwo_of_few⟩
  rw [← aluTdiv_eq_ofInt_sign_mul]
  exact exec_div_of_nonzero two under top divisor

end Sys2Proof.Machine
end

