-- ==== Sys2Proof/Proofs/SystemOps.lean ====
section
/-!
The system instructions (45_system_ops.md): what NOP, PRINT and STOP do in each of their cases (R161, R162, R164), and the text
of the output log, each line of which is a decimal numeral (R163).
-/

namespace Sys2Proof.Machine

/-! ### Decimal numerals -/

/-- `ds` is the number `n` in ASCII decimal digits, most significant first, without leading zeros (R163). -/
structure IsDecimal (n : Nat) (ds : List Byte) : Prop where
  digit : ∀ d ∈ ds, 0x30 ≤ d.toNat ∧ d.toNat ≤ 0x39
  ne_nil : ds ≠ []
  noLeadingZero : ds.head? = some 0x30 → ds = [0x30]
  value : digitsValue ds = n

theorem toNat_digit {d : Nat} (hd : d < 10) : (BitVec.ofNat 8 (0x30 + d)).toNat = 0x30 + d := by
  rw [BitVec.toNat_ofNat]
  omega

theorem digitsValue_append_singleton (ds : List Byte) (d : Byte) :
    digitsValue (ds ++ [d]) = 10 * digitsValue ds + (d.toNat - 0x30) := by
  simp [digitsValue]

theorem isDecimal_digit {n : Nat} (hn : n < 10) : IsDecimal n [BitVec.ofNat 8 (0x30 + n)] where
  digit := by
    rw [List.forall_mem_singleton, toNat_digit hn]
    omega
  ne_nil := List.cons_ne_nil _ _
  noLeadingZero h := by rw [Option.some.inj h]
  value := by simp only [digitsValue, List.foldl_cons, List.foldl_nil, toNat_digit hn]; omega

/-- A numeral of a positive number, which does not start with a zero, may be followed by any digit. -/
theorem IsDecimal.append_digit {n d : Nat} {ds : List Byte} (h : IsDecimal n ds) (hn : 0 < n) (hd : d < 10) :
    IsDecimal (10 * n + d) (ds ++ [BitVec.ofNat 8 (0x30 + d)]) where
  digit := by
    rw [List.forall_mem_append, List.forall_mem_singleton, toNat_digit hd]
    exact ⟨h.digit, by omega⟩
  ne_nil := List.append_ne_nil_of_left_ne_nil h.ne_nil _
  noLeadingZero hzero := by
    rw [List.head?_append_of_ne_nil _ h.ne_nil] at hzero
    have hn0 := h.value
    rw [h.noLeadingZero hzero] at hn0
    exact absurd hn0 hn.ne
  value := by
    rw [digitsValue_append_singleton, h.value, toNat_digit hd]
    omega

theorem decimalDigits_of_lt (fuel : Nat) {n : Nat} (hn : n < 10) :
    decimalDigits (fuel + 1) n = [BitVec.ofNat 8 (0x30 + n)] :=
  if_pos hn

theorem decimalDigits_of_le (fuel : Nat) {n : Nat} (hn : 10 ≤ n) :
    decimalDigits (fuel + 1) n = decimalDigits fuel (n / 10) ++ [BitVec.ofNat 8 (0x30 + n % 10)] :=
  if_neg (Nat.not_lt.2 hn)

/-- A number of at most `fuel + 1` digits is written out whole. -/
theorem isDecimal_decimalDigits (fuel : Nat) : ∀ {n : Nat}, n < 10 ^ (fuel + 1) →
    IsDecimal n (decimalDigits (fuel + 1) n) := by
  induction fuel with
  | zero =>
    intro n hn
    rw [decimalDigits_of_lt 0 hn]
    exact isDecimal_digit hn
  | succ fuel ih =>
    intro n hn
    obtain hlt | hle := Nat.lt_or_ge n 10
    · rw [decimalDigits_of_lt _ hlt]
      exact isDecimal_digit hlt
    · have hquot : IsDecimal (n / 10) (decimalDigits (fuel + 1) (n / 10)) := ih (by omega)
      have h := hquot.append_digit (Nat.div_pos hle (by decide)) (Nat.mod_lt n (by decide))
      rwa [Nat.div_add_mod, ← decimalDigits_of_le _ hle] at h

theorem decimalDigits_length_le (fuel : Nat) : ∀ n : Nat, (decimalDigits fuel n).length ≤ fuel := by
  induction fuel with
  | zero => exact fun _ => Nat.le_refl 0
  | succ fuel ih =>
    intro n
    obtain hlt | hle := Nat.lt_or_ge n 10
    · simp [decimalDigits_of_lt _ hlt]
    · simp [decimalDigits_of_le _ hle, ih]

/-! ### Lines and the log -/

/-- The magnitude of an `Int32` has at most ten digits (R12). -/
theorem isDecimal_magnitude (v : Word) : IsDecimal v.toInt.natAbs (decimalDigits 10 v.toInt.natAbs) := by
  have hlo := v.le_toInt
  have hhi := v.toInt_lt
  exact isDecimal_decimalDigits 9 (by omega)

/-- A line is its digits, the line feed, and a minus sign or none. -/
theorem renderLine_length (v : Word) : (renderLine v).length =
    (decimalDigits 10 v.toInt.natAbs).length + if v.toInt < 0 then 2 else 1 := by
  unfold renderLine
  split <;> simp

theorem renderLine_length_bounds (v : Word) : 2 ≤ (renderLine v).length ∧ (renderLine v).length ≤ 12 := by
  have hpos := List.length_pos_iff.2 (isDecimal_magnitude v).ne_nil
  have hle := decimalDigits_length_le 10 v.toInt.natAbs
  rw [renderLine_length]
  split <;> omega

theorem renderOut_append_singleton (out : List Word) (v : Word) :
    renderOut (out ++ [v]) = renderOut out ++ renderLine v := by
  simp [renderOut]

/-- Settles O54: what stands between the sign and the line feed is the numeral of the magnitude. -/
theorem renderedLineIsDecimal : Obligations.RenderedLineIsDecimal := by
  intro v
  obtain ⟨hdigit, hne, hzero, hvalue⟩ := isDecimal_magnitude v
  obtain ⟨hmin, hmax⟩ := renderLine_length_bounds v
  exact ⟨_, rfl, hdigit, hne, hzero, hvalue, hmin, hmax, rfl, fun out => renderOut_append_singleton out v⟩

/-! ### The instructions -/

/-- Settles O6: the decoder reads back the encoding of NOP, which advances `pc`. -/
theorem nopAdvancesOnly : Obligations.NopAdvancesOnly :=
  ⟨decode_encode_append (i := .nop) rfl, fun _ => rfl⟩

theorem exec_print_of_top {v : Word} {s : State} (hsp : s.sp ≠ 0) (htop : s.stack[s.sp - 1]? = some v) :
    exec .print s = .next ((s.dropped.emit v).advance 1) :=
  withTop_of_top hsp htop

theorem exec_print_of_empty {s : State} (hsp : s.sp = 0) : exec .print s = .next (s.faultEntry .stackUnderflow) :=
  if_pos hsp

/-- Settles O18: the decoder reads back the encoding of PRINT, which drops the top of stack and emits it. -/
theorem printPopsAndEmits : Obligations.PrintPopsAndEmits :=
  ⟨decode_encode_append (i := .print) rfl, fun _ _ => exec_print_of_top, fun _ => exec_print_of_empty⟩

/-- Settles O19: the decoder reads back the encoding of STOP, which advances `pc` and halts. -/
theorem stopHalts : Obligations.StopHalts :=
  ⟨decode_encode_append (i := .stop) rfl, fun _ => rfl⟩

end Sys2Proof.Machine
end

