-- ==== Sys2Proof/Proofs/Exceptions.lean ====
section
/-!
Which fault an instruction raises when it is executed (60_exceptions.md R171 to R176), as one function of the state it starts
in, and that a step that faults does nothing else (R180 to R182).
-/

namespace Sys2Proof.Machine

/-! ### The fault table -/

/-- The rows of the fault table (R171) that execution raises: the fault of instruction `i` in `s`, if it has one there. -/
def State.executionFault (s : State) : Instr → Option FaultKind
  | .nop | .jmp _ | .stop => none
  | .push _ => if s.cfg.stackCap ≤ s.sp then some .stackOverflow else none
  | .load r => if r < s.cfg.nregs then if s.cfg.stackCap ≤ s.sp then some .stackOverflow else none else none
  | .pop | .store _ | .jz _ | .jnz _ | .print => if s.sp = 0 then some .stackUnderflow else none
  | .add | .sub | .mul => if s.sp < 2 then some .stackUnderflow else none
  | .div =>
    if s.sp < 2 then some .stackUnderflow
    else if s.stack[s.sp - 1]? = some 0#32 then some .divideByZero else none

/-- The row of R173. -/
theorem State.executionFault_eq_stackOverflow {s : State} {i : Instr} : s.executionFault i = some .stackOverflow ↔
    s.cfg.stackCap ≤ s.sp ∧ ((∃ n, i = .push n) ∨ ∃ r, i = .load r ∧ r < s.cfg.nregs) := by
  cases i with
  | div => simp only [executionFault]; split_ifs <;> simp
  | load r => simp [executionFault, and_comm]
  | _ => simp [executionFault]

/-- The row of R174. -/
theorem State.executionFault_eq_stackUnderflow {s : State} {i : Instr} : s.executionFault i = some .stackUnderflow ↔
    (s.sp = 0 ∧ (i = .pop ∨ (∃ r, i = .store r) ∨ (∃ a, i = .jz a) ∨ (∃ a, i = .jnz a) ∨ i = .print)) ∨
    (s.sp < 2 ∧ (i = .add ∨ i = .sub ∨ i = .mul ∨ i = .div)) := by
  cases i with
  | div => simp only [executionFault]; split_ifs <;> simp [*]
  | _ => simp [executionFault]

/-- The row of R176. -/
theorem State.executionFault_eq_divideByZero {s : State} {i : Instr} : s.executionFault i = some .divideByZero ↔
    i = .div ∧ 2 ≤ s.sp ∧ s.stack[s.sp - 1]? = some 0#32 := by
  cases i with
  | div =>
    by_cases few : s.sp < 2
    · simp [executionFault, few, Nat.not_le.2 few]
    · simp [executionFault, few, Nat.not_lt.1 few]
  | _ => simp [executionFault]

/-- The other kinds are raised by fetching and by the loader (R170). -/
theorem State.executionFault_cases {s : State} {i : Instr} {k : FaultKind} (h : s.executionFault i = some k) :
    k = .stackOverflow ∨ k = .stackUnderflow ∨ k = .divideByZero := by
  cases i with
  | nop | jmp | stop => cases h
  | _ =>
    simp only [executionFault] at h
    split_ifs at h <;> simp [← Option.some.inj h]

/-! ### Execution follows the table -/

/-- Every next state that `r` answers is the entry of the fault given, made from `s`; with no fault given it has the cause of
`s` and is not newly Faulted. -/
def Raises (s : State) (fault : Option FaultKind) (r : Result) : Prop :=
  ∀ t, r = .next t →
    match fault with
    | some k => t = s.faultEntry k
    | none => t.cause = s.cause ∧ (t.status = .faulted → s.status = .faulted)

theorem raises_none_next {s t : State} (hcause : t.cause = s.cause) (hstatus : t.status = s.status) :
    Raises s none (.next t) := by
  rintro _ ⟨⟩
  exact ⟨hcause, hstatus.symm.trans⟩

theorem raises_raise (k : FaultKind) (s : State) : Raises s (some k) (raise k s) :=
  fun _ h => (raise_eq_next.1 h).symm

theorem withTop_raises {s : State} {f : Word → Result} (hf : ∀ v, Raises s none (f v)) :
    Raises s (if s.sp = 0 then some .stackUnderflow else none) (withTop s f) := by
  intro t h
  obtain ⟨hsp, ht⟩ | ⟨hsp, v, -, hv⟩ := withTop_next h
  · rwa [if_pos hsp]
  · rw [if_neg hsp]
    exact hf v t hv

theorem withTwo_raises {s : State} {f : Word → Word → Result} {fault : Option FaultKind}
    (hf : ∀ a b, s.stack[s.sp - 1]? = some b → Raises s fault (f a b)) :
    Raises s (if s.sp < 2 then some .stackUnderflow else fault) (withTwo s f) := by
  intro t h
  obtain ⟨few, ht⟩ | ⟨two, a, b, -, top, hab⟩ := withTwo_next h
  · rwa [if_pos few]
  · rw [if_neg (Nat.not_lt.2 two)]
    exact hf a b top t hab

theorem withRoom_raises {s : State} {k : Result} (hk : Raises s none k) :
    Raises s (if s.cfg.stackCap ≤ s.sp then some .stackOverflow else none) (withRoom s k) := by
  intro t h
  obtain ⟨hfull, ht⟩ | ⟨room, -, hnext⟩ := withRoom_next h
  · rwa [if_pos hfull]
  · rw [if_neg (Nat.not_le.2 room)]
    exact hk t hnext

/-- Every instruction raises the fault that its row of the table names, exactly where the row says (R171). -/
theorem exec_raises (i : Instr) (s : State) : Raises s (s.executionFault i) (exec i s) := by
  cases i with
  | nop | jmp => exact raises_none_next rfl rfl
  | stop =>
    rintro _ ⟨⟩
    exact ⟨rfl, nofun⟩
  | push n => exact withRoom_raises (raises_none_next rfl rfl)
  | load r =>
    by_cases hr : r < s.cfg.nregs
    · simp only [State.executionFault, exec, execLoad, State.regInRange_iff, if_pos hr]
      refine withRoom_raises fun t h => ?_
      obtain ⟨v, -, hnext⟩ := withReg_next h
      obtain rfl := Host.Outcome.next.inj hnext
      exact ⟨rfl, id⟩
    · simp only [State.executionFault, exec, execLoad, State.regInRange_iff, if_neg hr]
      exact raises_none_next rfl rfl
  | pop =>
    simp only [State.executionFault, exec, execPop]
    split
    · exact raises_raise _ s
    · exact raises_none_next rfl rfl
  | store r =>
    refine withTop_raises fun v => ?_
    split
    · intro t h
      obtain ⟨-, rfl⟩ := writeReg_next h
      exact ⟨rfl, id⟩
    · exact raises_none_next rfl rfl
  | jz a | jnz a =>
    refine withTop_raises fun v => ?_
    split <;> exact raises_none_next rfl rfl
  | print => exact withTop_raises fun _ => raises_none_next rfl rfl
  | add | sub | mul => exact withTwo_raises fun _ _ _ => raises_none_next rfl rfl
  | div =>
    refine withTwo_raises fun a b top => ?_
    by_cases divisor : b = 0#32
    · rw [if_pos divisor, if_pos (divisor ▸ top)]
      exact raises_raise .divideByZero s
    · rw [if_neg divisor, if_neg (by simpa [top] using divisor)]
      exact raises_none_next rfl rfl

/-- An instruction that answers a next state entered its row's fault, or it had none and recorded none. -/
theorem exec_next_executionFault {i : Instr} {s t : State} (h : exec i s = .next t) :
    (∃ k, s.executionFault i = some k ∧ t = s.faultEntry k) ∨
    (s.executionFault i = none ∧ t.cause = s.cause ∧ (t.status = .faulted → s.status = .faulted)) := by
  have hr := exec_raises i s t h
  cases hf : s.executionFault i with
  | some k => exact .inl ⟨k, rfl, by simpa [hf] using hr⟩
  | none => exact .inr ⟨rfl, by simpa [hf] using hr⟩

/-- Where no cause is recorded before it, the cause after an instruction is its fault (R33, R171). -/
theorem exec_next_cause {i : Instr} {s t : State} (hs : s.cause = none) (h : exec i s = .next t) :
    t.cause = s.executionFault i := by
  obtain ⟨k, hf, rfl⟩ | ⟨hf, hcause, -⟩ := exec_next_executionFault h
  · exact hf.symm
  · rw [hf, hcause, hs]

/-- Settles O21: the cause is the row of the table that the instruction and the stack meet. -/
theorem executionFaultTable : Obligations.ExecutionFaultTable := by
  intro i s t hs h
  rw [exec_next_cause hs h]
  refine ⟨State.executionFault_eq_stackOverflow, State.executionFault_eq_stackUnderflow,
    State.executionFault_eq_divideByZero, ?_, ?_, ?_⟩
  all_goals exact fun hk => by simpa using State.executionFault_cases hk

/-! ### Fault entry -/

/-- Fetching does not raise the loader's fault (R170). -/
theorem fetch_ne_programTooLarge (s : State) : fetch s ≠ .error .programTooLarge := by
  unfold fetch
  split <;> simp

/-- Settles O32: from Running a step is Faulted only by a fault entry, of fetching or of the instruction fetched. -/
theorem faultsArePrecise : Obligations.FaultsArePrecise := by
  intro s t hs h ht
  obtain ⟨hns, -⟩ | ⟨-, k, hf, rfl⟩ | ⟨-, i, -, he⟩ := step_next h
  · exact absurd hs hns
  · exact ⟨k, fun hk => fetch_ne_programTooLarge s (hk ▸ hf), rfl⟩
  · obtain ⟨k, hf, rfl⟩ | ⟨-, -, hnew⟩ := exec_next_executionFault he
    · exact ⟨k, fun hk => by simpa [hk] using State.executionFault_cases hf, rfl⟩
    · cases hs.symm.trans (hnew ht)

end Sys2Proof.Machine
end

