-- ==== Sys2Proof/Proofs/LoaderModes.lean ====
section
/-!
The two loader modes (70_reset_and_hazards.md R204, R206): permissive boot runs the truncated image, and a program that fits
boots alike in both.
-/

namespace Sys2Proof.Machine

/-- Permissive boot, whatever the program's length: the reset state with the program's first MAX_INSTS bytes (R206). -/
theorem boot_of_permissive {c : Config} (hmode : c.loadMode = .permissive) (bytes : List Byte) :
    boot c bytes = { State.resetOf c with imem := Memory.writeBytes [] 0 (bytes.take c.maxInsts) } := by
  by_cases hfit : bytes.length ≤ c.maxInsts
  · rw [boot_of_le hfit, List.take_of_length_le hfit]
  · exact load_of_lt_permissive (s := State.resetOf c) (Nat.not_le.1 hfit) hmode

/-- Settles O52: permissive boot reads only the first MAX_INSTS bytes, and boot with a program that fits reads no mode. -/
theorem loaderModesDifferOnlyOnLongPrograms : Obligations.LoaderModesDifferOnlyOnLongPrograms := by
  intro c bytes
  refine ⟨fun hmode => ?_, fun hfit m => ?_⟩
  · have htake : (bytes.take c.maxInsts).length ≤ c.maxInsts := List.length_take_le _ _
    rw [boot_of_permissive hmode, boot_of_le htake]
    exact ⟨rfl, rfl⟩
  · rw [boot_of_le hfit, boot_of_le (c := { c with loadMode := m }) hfit]
    rfl

end Sys2Proof.Machine
end
